-- ==== Sys2Proof/Word.lean ====
section
/-! DEFINITION. The byte, the only unit of every data space of the engine (spec/20_memory.md R30, R31). -/

namespace Sys2Proof

/-- A byte: 8 bits, an unsigned integer 0 to 255 (00_scope.md R5, 20_memory.md R31). -/
abbrev Byte := BitVec 8

end Sys2Proof
end

