-- ==== Sys2Proof/Config.lean ====
section
/-! DEFINITION. What the source leaves to the implementation (spec/00_scope.md R4): the block sizes, the
configuration record, and one opaque constant for each open parameter and each unstated value. -/

namespace Sys2Proof

/-- The three supported block sizes (45_block_cipher.md R163, 10_state.md R12). -/
inductive BlockSize where
  | b16
  | b24
  | b32
  deriving DecidableEq, Repr

/-- A block size in bytes. -/
def BlockSize.bytes : BlockSize → Nat
  | .b16 => 16
  | .b24 => 24
  | .b32 => 32

/-- `Bytes(B)` of 45_block_cipher.md R160: one cipher block, and also one key (key and block have the
same length). -/
abbrev Block (B : BlockSize) := Vector Byte B.bytes

/-- The implementation parameters of the engine (00_scope.md R4): the block cipher as a pair of total
functions per block size (45_block_cipher.md R160, R165), the checksum function (44_checksum.md R150),
and the longest plaintext `ENC` accepts, `0 ≤ MAX_PT ≤ 2^32 − 37`. -/
structure Config where
  /-- `E_B(k, b)`: key, plaintext block, ciphertext block. -/
  E : (B : BlockSize) → Block B → Block B → Block B
  /-- `D_B(k, c)`: key, ciphertext block, plaintext block. -/
  D : (B : BlockSize) → Block B → Block B → Block B
  /-- `hash32`, a total function of the bytes alone. -/
  hash32 : List Byte → BitVec 32
  /-- `MAX_PT`; 4294967260 is 2^32 − 36. -/
  maxPt : Fin 4294967260

/-- `CipherInverse` (45_block_cipher.md R161): `D(k, ·)` and `E(k, ·)` invert each other for every block
size and every key. -/
def Config.CipherInverse (cfg : Config) : Prop :=
  ∀ (B : BlockSize) (k x : Block B), cfg.D B k (cfg.E B k x) = x ∧ cfg.E B k (cfg.D B k x) = x

/-- FREE VALUE (log entry 1): the block cipher the source never names (45_block_cipher.md R164, R165). Of it the model
knows R160's types and R161's inverse law, which the type `Equiv.Perm` carries, and nothing else. -/
opaque Config.openCipher : (B : BlockSize) → Block B → Equiv.Perm (Block B)

/-- FREE VALUE (log entry 2): the pluggable checksum function (44_checksum.md R150). -/
opaque Config.openHash32 : List Byte → BitVec 32

/-- FREE VALUE (log entry 3): the longest plaintext `ENC` accepts (00_scope.md R4, 92_eei_decisions.md D10). -/
opaque Config.openMaxPt : Fin 4294967260

/-- FREE VALUE (log entry 5): what the frame buffer holds at an offset before a command fills it
(10_state.md R19, R22: "undefined, unobservable"). -/
opaque Config.openResidue : Nat → Byte

end Sys2Proof
end

