-- ==== Sys2Proof/Syntax.lean ====
section
/-! DEFINITION. The seven commands of the opcode map (spec/30_encoding.md R59, spec/opcode_table.json). -/

namespace Sys2Proof

/-- One command, one constructor per row of the opcode table (30_encoding.md R59). Every constructor
carries its packet's payload as it stands on the stream (R51, R54); how long the payload of a command
may be is decided by `Instr.lenAllowed` and tested by the command's meaning (R61, R62). -/
inductive Instr where
  /-- NEWSZ, opcode 0x01 (40_construction.md R80): the payload is the requested key size in bits. -/
  | newsz (payload : List Byte)
  /-- NEWKEY, opcode 0x02 (40_construction.md R81): the payload is the key. -/
  | newkey (payload : List Byte)
  /-- ENC, opcode 0x03 (41_encrypt.md R100): the payload is the plaintext. -/
  | enc (payload : List Byte)
  /-- DEC, opcode 0x04 (42_decrypt.md R120): the payload is the ciphertext. -/
  | dec (payload : List Byte)
  /-- DISPOSE, opcode 0x05 (40_construction.md R83): no operand. -/
  | dispose (payload : List Byte)
  /-- RDENC, opcode 0x06 (43_counters.md R143): no operand. -/
  | rdenc (payload : List Byte)
  /-- RDDEC, opcode 0x07 (43_counters.md R144): no operand. -/
  | rddec (payload : List Byte)
  deriving DecidableEq, Repr

/-- The packet's payload bytes (30_encoding.md R51). -/
def Instr.payload : Instr → List Byte
  | .newsz p => p
  | .newkey p => p
  | .enc p => p
  | .dec p => p
  | .dispose p => p
  | .rdenc p => p
  | .rddec p => p

end Sys2Proof
end

