-- ==== Sys2Proof/WellFormed.lean ====
section
/-! DEFINITION. Which command terms a packet can carry (spec/30_encoding.md R51, R53), and which payload
lengths a command allows (R54, R61). -/

namespace Sys2Proof

/-- The packet's `len` field is an unsigned 32-bit number (30_encoding.md R51, R53), so a packet carries
a payload of fewer than 2^32 bytes. Nothing else limits which command terms a packet can carry. -/
def Instr.wellFormed (i : Instr) : Bool :=
  decide (i.payload.length < 2 ^ 32)

/-- The "required len" column of 30_encoding.md R54, as R61 turns it into `IllegalCommand`: NEWSZ takes
exactly 2 bytes, DISPOSE, RDENC and RDDEC none, ENC at most `maxPt`; NEWKEY and DEC take any length (a
wrong one is InvalidKeySize or InvalidCiphertextLength, not IllegalCommand). -/
def Instr.lenAllowed (maxPt : Nat) : Instr → Bool
  | .newsz p => decide (p.length = 2)
  | .newkey _ => true
  | .enc p => decide (p.length ≤ maxPt)
  | .dec _ => true
  | .dispose p => decide (p.length = 0)
  | .rdenc p => decide (p.length = 0)
  | .rddec p => decide (p.length = 0)

end Sys2Proof
end

