-- ==== Sys2Proof/Decode.lean ====
section
/-! DEFINITION. Byte order, the command packet format, the opcode map, the decoder and the encoder
(spec/20_memory.md R32; spec/30_encoding.md R51 to R53, R59, R60, R63; spec/00_scope.md R5). -/

namespace Sys2Proof

/-- `le_{8n}(v)` of 00_scope.md R5: `n` bytes, the least significant first. -/
def leBytes : Nat → Nat → List Byte
  | 0, _ => []
  | n + 1, v => BitVec.ofNat 8 v :: leBytes n (v / 256)

/-- `from_le(s)` of 00_scope.md R5: `sum(s[i] * 256^i)`. -/
def fromLe : List Byte → Nat
  | [] => 0
  | b :: bs => b.toNat + 256 * fromLe bs

/-- What the bytes at the head of the command stream are. -/
inductive Decoded where
  /-- A whole packet of one of the seven commands, and the bytes after it (30_encoding.md R53, R59). -/
  | command (i : Instr) (rest : List Byte)
  /-- A whole packet whose opcode is none of the seven, and the bytes after it (R60): no command. -/
  | illegal (opcode : Byte) (rest : List Byte)
  /-- Fewer than `5 + len` bytes have arrived (R53, R63): not yet a packet. -/
  | truncated
  deriving DecidableEq, Repr

/-- The opcode map (30_encoding.md R59): all eight bits decode (R52), 0x00 and 0x08 to 0xFF are illegal
(R60). -/
def commandOf (opcode : Byte) (payload : List Byte) : Option Instr :=
  match opcode.toNat with
  | 1 => some (.newsz payload)
  | 2 => some (.newkey payload)
  | 3 => some (.enc payload)
  | 4 => some (.dec payload)
  | 5 => some (.dispose payload)
  | 6 => some (.rdenc payload)
  | 7 => some (.rddec payload)
  | _ => none

/-- The decoder (30_encoding.md R53): byte 0, then `len` from bytes 1 to 4, then exactly `len` payload
bytes; the byte after those is byte 0 of the next packet. An illegal opcode's packet is taken whole
(R60). -/
def decode : List Byte → Decoded
  | opcode :: l0 :: l1 :: l2 :: l3 :: tail =>
    let len := fromLe [l0, l1, l2, l3]
    if tail.length < len then .truncated
    else
      match commandOf opcode (tail.take len) with
      | some i => .command i (tail.drop len)
      | none => .illegal opcode (tail.drop len)
  | _ => .truncated

/-- The opcode column of 30_encoding.md R59. -/
def opcodeOf : Instr → Byte
  | .newsz _ => 0x01
  | .newkey _ => 0x02
  | .enc _ => 0x03
  | .dec _ => 0x04
  | .dispose _ => 0x05
  | .rdenc _ => 0x06
  | .rddec _ => 0x07

/-- The `CMD` packet format for an opcode and a payload (30_encoding.md R51). -/
def commandPacket (opcode : Byte) (payload : List Byte) : List Byte :=
  opcode :: (leBytes 4 payload.length ++ payload)

/-- The encoder: the packet of a command (30_encoding.md R51, R59). -/
def encode (i : Instr) : List Byte :=
  commandPacket (opcodeOf i) i.payload

/-- The bytes of a packet given as an opcode-table word: the word's own bytes in stream order, at least
the five of the header, then a zero for every payload byte the word does not give. -/
def tableWordBytes (nbits w : Nat) : List Byte :=
  let given := leBytes (max 5 ((nbits + 7) / 8)) w
  let len := fromLe ((given.drop 1).take 4)
  given ++ List.replicate (len - (given.length - 5)) 0

/-- The command the decoder reads from an opcode-table word. -/
def decodeTableWord (nbits w : Nat) : Option Instr :=
  match decode (tableWordBytes nbits w) with
  | .command i _ => some i
  | .illegal _ _ => none
  | .truncated => none

end Sys2Proof
end

