-- ==== Sys2Proof/Machine/Flags.lean ====
section
/-! DEFINITION. The engine has no condition codes or flags (spec/10_state.md R17): the outcome of a command is
its response status only. This file holds the statuses and their codes (spec/60_exceptions.md R201). -/

namespace Sys2Proof.Machine

/-- The seven statuses a response can carry (60_exceptions.md R201). -/
inductive Status where
  | ok
  | invalidKeySize
  | invalidCiphertextLength
  | malformedFrame
  | integrityCheckFailed
  | noContext
  | illegalCommand
  deriving DecidableEq, Repr

/-- The status codes of 60_exceptions.md R201; 0x05 to 0x7F and 0x82 to 0xFF are never produced. -/
def statusCode : Status → Byte
  | .ok => 0x00
  | .invalidKeySize => 0x01
  | .invalidCiphertextLength => 0x02
  | .malformedFrame => 0x03
  | .integrityCheckFailed => 0x04
  | .noContext => 0x80
  | .illegalCommand => 0x81

end Sys2Proof.Machine
end

