-- ==== Sys2Proof/Machine/State.lean ====
section
/-! DEFINITION. Everything the spec gives the engine as state (spec/10_state.md R10, R22; spec/00_scope.md R8),
the value of all of it after reset, and the reasons a step can stop. -/

namespace Sys2Proof.Machine

/-- A reset the host will assert (70_reset_and_hazards.md R231, R243; log entry 9). -/
structure ResetRequest where
  /-- How many steps the engine takes before it, counted from the reset before it, or from now. -/
  after : Nat
  /-- The command bytes the host sends between this reset and the next. -/
  sent : List Byte
  deriving DecidableEq, Repr

/-- The state of the engine and of its four streams. The first five fields are the whole architectural
state (10_state.md R10); the other four are the interface of 00_scope.md R8. -/
structure State where
  /-- `LIVE`: a context exists (10_state.md R13). -/
  live : Bool
  /-- `KEY[0..31]` (10_state.md R11). -/
  key : Vector Byte 32
  /-- `BS`, the block size in bytes: 0, 16, 24 or 32 (10_state.md R12). -/
  bs : BitVec 6
  /-- `ENC_CNT` (10_state.md R14). -/
  encCnt : BitVec 16
  /-- `DEC_CNT` (10_state.md R15). -/
  decCnt : BitVec 16
  /-- The command stream: bytes that have arrived and are not yet consumed, the next one first
  (30_encoding.md R53, 20_memory.md R38). -/
  cmdIn : List Byte
  /-- The response stream: bytes emitted, the oldest first (30_encoding.md R56). -/
  rspOut : List Byte
  /-- The entropy input: bytes the entropy source has answered and no `NEWSZ` has drawn yet
  (60_exceptions.md R214). Under no law (40_construction.md R87). -/
  entropyIn : List Byte
  /-- The reset input, the model's own field (log entry 9): the resets the host will still assert, in
  order; one falls due between any two steps (70_reset_and_hazards.md R231, R243). -/
  resetIn : List ResetRequest
  deriving DecidableEq, Repr

/-- Why a step can stop with a fault. Neither is reached from a state that meets the invariants of
10_state.md R21. -/
inductive Fault where
  /-- Raised by ENC and DEC when a context is live and `BS` is none of 16, 24, 32, so that no cipher is
  defined for it (45_block_cipher.md R163). Safe: no run reaches such a state. -/
  | badBlockSize
  /-- Raised by ENC and DEC when a frame-buffer access violates its `requires` clause (20_memory.md R33:
  "a fault that no run reaches"). Safe: no run reaches it. -/
  | frameBufferRange
  deriving DecidableEq, Repr

/-- Why a step can be refused. Every command has its meaning, so nothing raises one. -/
inductive Refusal where
  /-- Raised by an arm of `exec` whose command has no meaning yet: none. Safe. -/
  | notModelled (mnemonic : String)
  deriving DecidableEq, Repr

/-- The state right after reset (10_state.md R22): no context, no key material, both counters 0, both
streams empty; nothing waiting on the entropy and reset inputs (log entries 4 and 9). -/
def State.reset : State where
  live := false
  key := Vector.replicate 32 0
  bs := 0
  encCnt := 0
  decCnt := 0
  cmdIn := []
  rspOut := []
  entropyIn := []
  resetIn := []

end Sys2Proof.Machine
end

