-- ==== Sys2Proof/Machine/Operands.lean ====
section
/-! DEFINITION. Operand assembly (spec/30_encoding.md R54, R55): the key size NEWSZ names, the block size a key
length or the `BS` register names, and the key as the register holds it and as the cipher takes it. -/

namespace Sys2Proof.Machine

/-- The block size of a length in bytes, if it is one of 16, 24, 32 (10_state.md R12). -/
def blockSizeOfLen (n : Nat) : Option BlockSize :=
  if n = 16 then some .b16
  else if n = 24 then some .b24
  else if n = 32 then some .b32
  else none

/-- NEWSZ's operand (30_encoding.md R54): the payload as one unsigned little-endian integer; two bytes
give 16 bits. -/
def newszBits (payload : List Byte) : Nat :=
  fromLe payload

/-- The block size of a requested key size in bits, one of 128, 192, 256 (40_construction.md R80). -/
def blockSizeOfBits (bits : Nat) : Option BlockSize :=
  if bits = 128 then some .b16
  else if bits = 192 then some .b24
  else if bits = 256 then some .b32
  else none

/-- The live context's block size, as the `BS` register holds it (10_state.md R12). -/
def contextSize (s : State) : Option BlockSize :=
  blockSizeOfLen s.bs.toNat

/-- The first `B` bytes of a byte sequence as a cipher block. -/
def blockOfList (B : BlockSize) (l : List Byte) : Block B :=
  Vector.ofFn fun i => l.getD i.val 0

/-- The key of a live context, `KEY[0 .. BS]` (10_state.md R11). -/
def contextKey (B : BlockSize) (s : State) : Block B :=
  blockOfList B s.key.toList

/-- The 32-byte image of a key in `KEY`: the key, then zeros (40_construction.md R82). -/
def keyImage (k : List Byte) : Vector Byte 32 :=
  Vector.ofFn fun i => k.getD i.val 0

end Sys2Proof.Machine
end

