-- ==== Sys2Proof/Machine/Ops.lean ====
section
/-! DEFINITION. The shared operations: answering a command and ending it with an error (spec/30_encoding.md R56,
R57; spec/60_exceptions.md R200, R210), installing and wiping a context (spec/40_construction.md R82, R83), the
counter increment (spec/43_counters.md R140), the draw (R87), the reset event (spec/70_reset_and_hazards.md R230,
R231), and what the outside world can do to the engine (R243). -/

namespace Sys2Proof.Machine

/-- The configuration of the modelled engine: every parameter of 00_scope.md R4 the source leaves open is
an opaque constant (log entries 1, 2, 3). -/
def engine : Config where
  E := fun B k b => Config.openCipher B k b
  D := fun B k c => (Config.openCipher B k).symm c
  hash32 := Config.openHash32
  maxPt := Config.openMaxPt

/-- The response packet `RSP` (30_encoding.md R56). -/
def responsePacket (st : Status) (payload : List Byte) : List Byte :=
  statusCode st :: (leBytes 4 payload.length ++ payload)

/-- `respond` of 00_scope.md R6: one response packet goes out on the response stream. -/
def respond (st : Status) (payload : List Byte) (s : State) : State :=
  { s with rspOut := s.rspOut ++ responsePacket st payload }

/-- `raise` of 00_scope.md R6 and 60_exceptions.md R210, the engine's "trap entry": the command ends with
the error's status and an empty payload; no register is written, nothing is saved, control goes nowhere.
State writes made before it stay. -/
def raise (e : Status) (s : State) : State :=
  respond e [] s

/-- `Inc16` (43_counters.md R140): `(v + 1) mod 2^16`. -/
def inc16 (v : BitVec 16) : BitVec 16 :=
  v + 1

/-- One ENC is counted (43_counters.md R141). -/
def countEnc (s : State) : State :=
  { s with encCnt := inc16 s.encCnt }

/-- One DEC is counted (43_counters.md R142). -/
def countDec (s : State) : State :=
  { s with decCnt := inc16 s.decCnt }

/-- `Install(k)` (40_construction.md R82): key with zero tail, `BS` the key's length, both counters 0,
`LIVE` 1, in one step. -/
def install (k : List Byte) (s : State) : State :=
  { s with
    live := true
    key := keyImage k
    bs := BitVec.ofNat 6 k.length
    encCnt := 0
    decCnt := 0 }

/-- What DISPOSE does to the registers (40_construction.md R83): the key wiped and `LIVE` 0; `BS` and the
counters stay. -/
def wipe (s : State) : State :=
  { s with live := false, key := Vector.replicate 32 0 }

/-- `draw(n)` (40_construction.md R87, 60_exceptions.md R214): the next `n` bytes the entropy source has
answered; none when it has not answered that many yet. -/
def draw (n : Nat) (s : State) : Option (List Byte × State) :=
  if s.entropyIn.length < n then none
  else some (s.entropyIn.take n, { s with entropyIn := s.entropyIn.drop n })

/-- How many entropy bytes a command must draw to complete: `bits / 8` on NEWSZ's success path, none
otherwise (60_exceptions.md R214). -/
def entropyNeed : Instr → Nat
  | .newsz payload =>
    if payload.length = 2 then
      match blockSizeOfBits (newszBits payload) with
      | some B => B.bytes
      | none => 0
    else 0
  | .newkey _ => 0
  | .enc _ => 0
  | .dec _ => 0
  | .dispose _ => 0
  | .rdenc _ => 0
  | .rddec _ => 0

/-- The reset event (70_reset_and_hazards.md R230, R231): every register at its reset value and both
streams emptied, whatever was unread, being received or being executed; then the bytes the host sends after
the reset arrive. The entropy source is no part of the engine and keeps what it has answered (log entry 11). -/
def resetEvent (sent : List Byte) (later : List ResetRequest) (s : State) : State :=
  { State.reset with cmdIn := sent, entropyIn := s.entropyIn, resetIn := later }

/-- The reset that is due before the next command, with what the host does after it
(70_reset_and_hazards.md R231: "enabled between any two commands"). -/
def dueReset : List ResetRequest → Option (List Byte × List ResetRequest)
  | [] => none
  | r :: later => if r.after = 0 then some (r.sent, later) else none

/-- The reset input after `n` more steps. -/
def countdown (n : Nat) : List ResetRequest → List ResetRequest
  | [] => []
  | r :: later => { r with after := r.after - n } :: later

/-- One step that is no reset has gone by on the reset input. -/
def elapse (s : State) : State :=
  { s with resetIn := countdown 1 s.resetIn }

/-- The packet the engine takes off the stream leaves `rest` behind (30_encoding.md R53). -/
def consume (rest : List Byte) (s : State) : State :=
  { s with cmdIn := rest }

/-- The bytes land after everything the host has already arranged: on the command stream, or after the
last reset still to come. -/
def sendAfter (bytes : List Byte) : List Byte → List ResetRequest → List Byte × List ResetRequest
  | current, [] => (current ++ bytes, [])
  | current, next :: later =>
    let r := sendAfter bytes next.sent later
    (current, { next with sent := r.1 } :: r.2)

/-- HOST: sends bytes on the command stream (70_reset_and_hazards.md R243). -/
def hostSend (bytes : List Byte) (s : State) : State :=
  let r := sendAfter bytes s.cmdIn s.resetIn
  { s with cmdIn := r.1, resetIn := r.2 }

/-- HOST: asserts reset once `n` more steps have been taken, counted from the last reset it has arranged,
or from now (70_reset_and_hazards.md R243: "between any two commands, any number of times"). With `n = 0`
and none arranged, the very next step is the reset, whatever stands on the stream. -/
def hostReset (n : Nat) (s : State) : State :=
  { s with resetIn := s.resetIn ++ [{ after := n, sent := [] }] }

/-- ENTROPY SOURCE: answers bytes (60_exceptions.md R214); any bytes (40_construction.md R87). -/
def entropyAnswer (bytes : List Byte) (s : State) : State :=
  { s with entropyIn := s.entropyIn ++ bytes }

end Sys2Proof.Machine
end

