-- ==== Sys2Proof/Machine/Construction.lean ====
section
/-! DEFINITION. NEWSZ, NEWKEY and DISPOSE (spec/40_construction.md). -/

namespace Sys2Proof.Machine

/-- NEWSZ (40_construction.md R80): a wrong operand width is IllegalCommand, an unsupported size
InvalidKeySize, neither with any state change or entropy consumed (R86). Legal in every state (R85). The
key is a draw (R87); while the entropy source has not answered, the command does not complete
(60_exceptions.md R214), so nothing changes and no response goes out. -/
def execNewsz (payload : List Byte) (s : State) : Host.Outcome State Fault Refusal :=
  if payload.length ≠ 2 then .next (raise .illegalCommand s)
  else
    match blockSizeOfBits (newszBits payload) with
    | none => .next (raise .invalidKeySize s)
    | some B =>
      match draw B.bytes s with
      | none => .next s
      | some (rnd, s') => .next (respond .ok [] (install rnd s'))

/-- NEWKEY (40_construction.md R81): a key of 16, 24 or 32 bytes is installed, any other length is
InvalidKeySize with no state change (R86). Legal in every state (R85). -/
def execNewkey (key : List Byte) (s : State) : Host.Outcome State Fault Refusal :=
  match blockSizeOfLen key.length with
  | none => .next (raise .invalidKeySize s)
  | some _ => .next (respond .ok [] (install key s))

/-- DISPOSE (40_construction.md R83): wipes the key and ends the context; idempotent, and legal with no
context. -/
def execDispose (payload : List Byte) (s : State) : Host.Outcome State Fault Refusal :=
  if payload.length ≠ 0 then .next (raise .illegalCommand s)
  else .next (respond .ok [] (wipe s))

end Sys2Proof.Machine
end

