-- ==== Sys2Proof/Machine/Counters.lean ====
section
/-! DEFINITION. RDENC and RDDEC (spec/43_counters.md). -/

namespace Sys2Proof.Machine

/-- RDENC (43_counters.md R143): `le_16(ENC_CNT)`; writes no state; legal in every state. -/
def execRdenc (payload : List Byte) (s : State) : Host.Outcome State Fault Refusal :=
  if payload.length ≠ 0 then .next (raise .illegalCommand s)
  else .next (respond .ok (leBytes 2 s.encCnt.toNat) s)

/-- RDDEC (43_counters.md R144): `le_16(DEC_CNT)`; writes no state; legal in every state. -/
def execRddec (payload : List Byte) (s : State) : Host.Outcome State Fault Refusal :=
  if payload.length ≠ 0 then .next (raise .illegalCommand s)
  else .next (respond .ok (leBytes 2 s.decCnt.toNat) s)

end Sys2Proof.Machine
end

