-- ==== Sys2Proof/Machine/Ecb.lean ====
section
/-! DEFINITION. The ECB datapaths (spec/41_encrypt.md R105, spec/42_decrypt.md R122): every whole block of the frame
buffer goes through the cipher on its own, with the same key and with nothing else (spec/20_memory.md R42). -/

namespace Sys2Proof.Machine

/-- `f` applied to each of the first `n` blocks of the buffer, in ascending order (the order is
unobservable, 20_memory.md R42; log entry 19). -/
def ecb (B : BlockSize) (f : Block B → Block B) : Nat → List Byte → List Byte
  | 0, _ => []
  | n + 1, fb => (f (blockOfList B fb)).toList ++ ecb B f n (fb.drop B.bytes)

/-- `EcbEnc()` (41_encrypt.md R105) with the key `k`. -/
def ecbEnc (cfg : Config) (B : BlockSize) (k : Block B) (fb : List Byte) : List Byte :=
  ecb B (cfg.E B k) (fb.length / B.bytes) fb

/-- `EcbDec()` (42_decrypt.md R122) with the key `k`. -/
def ecbDec (cfg : Config) (B : BlockSize) (k : Block B) (fb : List Byte) : List Byte :=
  ecb B (cfg.D B k) (fb.length / B.bytes) fb

end Sys2Proof.Machine
end

