-- ==== Sys2Proof/Machine/Frame.lean ====
section
/-! DEFINITION. The frame buffer `FB`: its access primitives (spec/20_memory.md R33), the frame layout (R34), the
padding length (spec/41_encrypt.md R101), the field packer (R103, R104) and the field unpacker (spec/42_decrypt.md
R123). `FB` exists only inside one command (spec/10_state.md R19), so it is a value here and no field of State. -/

namespace Sys2Proof.Machine

/-- The contents of the frame buffer, byte offset 0 first; its length is `FL` (20_memory.md R30). -/
abbrev FrameBuffer := List Byte

/-- A buffer of `n` bytes that no command has filled yet: undefined contents (10_state.md R19, R22). -/
def freshBuffer (n : Nat) : FrameBuffer :=
  (List.range n).map Config.openResidue

/-- `MemReadBytes(a, n)` (20_memory.md R33); none outside the buffer. -/
def memReadBytes (a n : Nat) (fb : FrameBuffer) : Option (List Byte) :=
  if a + n ≤ fb.length then some ((fb.drop a).take n) else none

/-- `MemRead(a, n)` (20_memory.md R33): little-endian. -/
def memRead (a n : Nat) (fb : FrameBuffer) : Option Nat :=
  (memReadBytes a n fb).map fromLe

/-- `MemWriteBytes(a, s)` (20_memory.md R33); none outside the buffer. -/
def memWriteBytes (a : Nat) (s : List Byte) (fb : FrameBuffer) : Option FrameBuffer :=
  if a + s.length ≤ fb.length then some (fb.take a ++ s ++ fb.drop (a + s.length)) else none

/-- `MemWrite(a, n, v)` (20_memory.md R33): little-endian. -/
def memWrite (a n v : Nat) (fb : FrameBuffer) : Option FrameBuffer :=
  memWriteBytes a (leBytes n v) fb

/-- `MemFill(a, n, b)` (20_memory.md R33). -/
def memFill (a n : Nat) (b : Byte) (fb : FrameBuffer) : Option FrameBuffer :=
  memWriteBytes a (List.replicate n b) fb

/-- `HDR` (00_scope.md R4): the bytes before the plaintext in a frame, 1 + 4. -/
def headerLen : Nat := 5

/-- `PADBYTE` (00_scope.md R4, 41_encrypt.md R104). -/
def padByte : Byte := 0x00

/-- `PadLen(L, B)` (41_encrypt.md R101): the outer `mod` turns `B` into 0. -/
def padLen (L B : Nat) : Nat :=
  (B - (L + 5) % B) % B

/-- `FL = 5 + L + P` (41_encrypt.md R100, R102). -/
def frameLen (L B : Nat) : Nat :=
  headerLen + L + padLen L B

/-- The layout of a frame (20_memory.md R34): padding length, checksum little-endian, plaintext, filler.
It is what `pack` leaves (`pack_eq`). -/
def frameBytes (P : Nat) (chk : BitVec 32) (p filler : List Byte) : List Byte :=
  leBytes 1 P ++ leBytes 4 chk.toNat ++ p ++ filler

/-- `Pack(P, chk, p)` (41_encrypt.md R103): padding length, checksum, plaintext, filler. -/
def pack (P : Nat) (chk : BitVec 32) (p : List Byte) (fb : FrameBuffer) : Option FrameBuffer := do
  let fb ← memWrite 0 1 P fb
  let fb ← memWrite 1 4 chk.toNat fb
  let fb ← memWriteBytes headerLen p fb
  memFill (headerLen + p.length) P padByte fb

/-- `Unpack()` (42_decrypt.md R123): the unsigned padding length and the checksum. -/
def unpack (fb : FrameBuffer) : Option (Nat × Nat) := do
  let P ← memRead 0 1 fb
  let chk ← memRead 1 4 fb
  return (P, chk)

end Sys2Proof.Machine
end

