-- ==== Sys2Proof/Machine/Decrypt.lean ====
section
/-! DEFINITION. DEC (spec/42_decrypt.md), for any configuration and for the modelled engine. -/

namespace Sys2Proof.Machine

/-- What DEC answers once the frame is recovered (42_decrypt.md R120 steps 3 to 5): the slice test
(R124), then the checksum comparison over the recovered plaintext (R125). Neither the filler nor `P < BS`
is tested (R126). None when a buffer access violates its `requires` clause. -/
def judgeFrame (cfg : Config) (fb : FrameBuffer) : Option (Status × List Byte) := do
  let (P, chk) ← unpack fb
  if fb.length < headerLen + P then return (.malformedFrame, [])
  let p ← memReadBytes headerLen (fb.length - P - headerLen) fb
  if (cfg.hash32 p).toNat ≠ chk then return (.integrityCheckFailed, [])
  return (.ok, p)

/-- `DEC c` under a configuration, in the order of 42_decrypt.md R120: the context test (R130), the
increment (43_counters.md R142), the length test (R121), ECB decryption (R122), then `judgeFrame`. On an
error the recovered bytes are discarded (R129). -/
def decWith (cfg : Config) (c : List Byte) (s : State) : Host.Outcome State Fault Refusal :=
  if s.live = false then .next (raise .noContext s)
  else
    match contextSize s with
    | none => .fault .badBlockSize
    | some B =>
      if c.length = 0 ∨ c.length % B.bytes ≠ 0 then
        .next (raise .invalidCiphertextLength (countDec s))
      else
        match judgeFrame cfg (ecbDec cfg B (contextKey B s) c) with
        | none => .fault .frameBufferRange
        | some (st, p) => .next (respond st p (countDec s))

/-- DEC (42_decrypt.md R120). -/
def execDec (c : List Byte) (s : State) : Host.Outcome State Fault Refusal :=
  decWith engine c s

end Sys2Proof.Machine
end

