-- ==== Sys2Proof/Machine/Encrypt.lean ====
section
/-! DEFINITION. ENC (spec/41_encrypt.md), for any configuration and for the modelled engine. -/

namespace Sys2Proof.Machine

/-- `ENC p` under a configuration, in the order of 41_encrypt.md R100: the length bound, the context test
(R108), the increment (43_counters.md R141), checksum, padding length, packing, ECB encryption. -/
def encWith (cfg : Config) (p : List Byte) (s : State) : Host.Outcome State Fault Refusal :=
  if cfg.maxPt.val < p.length then .next (raise .illegalCommand s)
  else if s.live = false then .next (raise .noContext s)
  else
    match contextSize s with
    | none => .fault .badBlockSize
    | some B =>
      let chk := cfg.hash32 p
      let P := padLen p.length B.bytes
      match pack P chk p (freshBuffer (frameLen p.length B.bytes)) with
      | none => .fault .frameBufferRange
      | some fb => .next (respond .ok (ecbEnc cfg B (contextKey B s) fb) (countEnc s))

/-- ENC (41_encrypt.md R100). -/
def execEnc (p : List Byte) (s : State) : Host.Outcome State Fault Refusal :=
  encWith engine p s

end Sys2Proof.Machine
end

