-- ==== Sys2Proof/Machine/Dispatch.lean ====
section
/-! DEFINITION. The dispatch of a command to its meaning (spec/30_encoding.md R59). -/

namespace Sys2Proof.Machine

def exec (i : Instr) (s : State) : Host.Outcome State Fault Refusal :=
  match i with
  | .newsz payload => Sys2Proof.Machine.execNewsz payload s
  | .newkey payload => Sys2Proof.Machine.execNewkey payload s
  | .enc payload => Sys2Proof.Machine.execEnc payload s
  | .dec payload => Sys2Proof.Machine.execDec payload s
  | .dispose payload => Sys2Proof.Machine.execDispose payload s
  | .rdenc payload => Sys2Proof.Machine.execRdenc payload s
  | .rddec payload => Sys2Proof.Machine.execRddec payload s

end Sys2Proof.Machine
end

