-- ==== Sys2Proof/Machine/Serve.lean ====
section
/-! DEFINITION. What the engine does with the command stream in a step that is no reset (spec/30_encoding.md R53, R60,
R63; spec/60_exceptions.md R214). -/

namespace Sys2Proof.Machine

/-- A whole packet of a command is consumed and executed, unless it is a NEWSZ whose entropy has not
arrived (60_exceptions.md R214; log entry 16); a whole packet with an illegal opcode is consumed and
answered with IllegalCommand (30_encoding.md R60); with no whole packet the engine waits (R63). -/
def serve (s : State) : Host.Outcome State Fault Refusal :=
  match decode s.cmdIn with
  | .command i rest =>
    if s.entropyIn.length < entropyNeed i then .next s
    else exec i (consume rest s)
  | .illegal _ rest => .next (raise .illegalCommand (consume rest s))
  | .truncated => .next s

end Sys2Proof.Machine
end

