-- ==== Sys2Proof/Machine/Step.lean ====
section
/-! DEFINITION. One step of the engine: one reset, or one whole command with its response, or waiting
(spec/00_scope.md R8; spec/70_reset_and_hazards.md R231, R244). -/

namespace Sys2Proof.Machine

/-- One step. A reset that is due is a step of its own, whatever stands on the command stream
(70_reset_and_hazards.md R231); otherwise the engine serves the command stream. -/
def step (s : State) : Host.Outcome State Fault Refusal :=
  match dueReset s.resetIn with
  | some (sent, later) => .next (resetEvent sent later s)
  | none => serve (elapse s)

/-- `s` after the host has sent, on an otherwise empty command stream and with no reset to come, the packet
an opcode-table word stands for: the next step takes exactly that packet (log entry 12). -/
def State.withFetchWord (s : State) (nbits w : Nat) : State :=
  { s with cmdIn := tableWordBytes nbits w, resetIn := [] }

end Sys2Proof.Machine
end

