-- ==== Sys2Proof/Machine/Assembly.lean ====
section
/-! DEFINITION. The textual form of a command (spec/30_encoding.md R64): one command per line, mnemonic then operand;
a `;` starts a comment; the encoding of a line is the packet of R51. -/

namespace Sys2Proof.Machine

/-- The line without its comment (30_encoding.md R64). -/
def stripComment : List Char → List Char
  | [] => []
  | c :: cs => if c = ';' then [] else c :: stripComment cs

/-- The words of a line, cut at blanks; `word` is the word being read, its last character first. -/
def wordsFrom (word : List Char) : List Char → List (List Char)
  | [] => if word = [] then [] else [word.reverse]
  | c :: cs =>
    if c = ' ' ∨ c = '\t' then
      if word = [] then wordsFrom [] cs else word.reverse :: wordsFrom [] cs
    else wordsFrom (c :: word) cs

/-- A decimal digit. -/
def decimalDigit (c : Char) : Option Nat :=
  if '0' ≤ c ∧ c ≤ '9' then some (c.toNat - 48) else none

/-- A decimal integer; `acc` is the value of the digits already read. -/
def decimalFrom (acc : Nat) : List Char → Option Nat
  | [] => some acc
  | c :: cs => (decimalDigit c).bind fun d => decimalFrom (10 * acc + d) cs

/-- A hexadecimal digit, of either case (log entry 22). -/
def hexDigit (c : Char) : Option Nat :=
  if '0' ≤ c ∧ c ≤ '9' then some (c.toNat - 48)
  else if 'a' ≤ c ∧ c ≤ 'f' then some (c.toNat - 87)
  else if 'A' ≤ c ∧ c ≤ 'F' then some (c.toNat - 55)
  else none

/-- Bytes as hexadecimal digit pairs. -/
def hexBytes : List Char → Option (List Byte)
  | [] => some []
  | hi :: lo :: cs =>
    match hexDigit hi, hexDigit lo, hexBytes cs with
    | some h, some l, some bs => some (BitVec.ofNat 8 (16 * h + l) :: bs)
    | _, _, _ => none
  | [_] => none

/-- An ENC or DEC operand: hexadecimal digit pairs, or `""` for the empty byte sequence. -/
def bytesOperand (w : List Char) : Option (List Byte) :=
  if w = ['"', '"'] then some [] else hexBytes w

/-- The command a line of text stands for; none when it is no command's line (30_encoding.md R64). -/
def assemble (line : List Char) : Option Instr :=
  match wordsFrom [] (stripComment line) with
  | [m] =>
    if m = ['D', 'I', 'S', 'P', 'O', 'S', 'E'] then some (.dispose [])
    else if m = ['R', 'D', 'E', 'N', 'C'] then some (.rdenc [])
    else if m = ['R', 'D', 'D', 'E', 'C'] then some (.rddec [])
    else none
  | [m, operand] =>
    if m = ['N', 'E', 'W', 'S', 'Z'] then
      match decimalFrom 0 operand with
      | some bits => if bits < 65536 then some (.newsz (leBytes 2 bits)) else none
      | none => none
    else if m = ['N', 'E', 'W', 'K', 'E', 'Y'] then (hexBytes operand).map .newkey
    else if m = ['E', 'N', 'C'] then (bytesOperand operand).map .enc
    else if m = ['D', 'E', 'C'] then (bytesOperand operand).map .dec
    else none
  | _ => none

/-- The packet a line of text stands for: `len` is computed from the operand (30_encoding.md R64). -/
def assembledPacket (line : List Char) : Option (List Byte) :=
  (assemble line).map encode

/-- One hexadecimal digit as text, lower case. -/
def hexChar (n : Nat) : Char :=
  if n < 10 then Char.ofNat (48 + n) else Char.ofNat (87 + n)

/-- Bytes as text: hexadecimal digit pairs in index order. -/
def hexText : List Byte → List Char
  | [] => []
  | b :: bs => hexChar (b.toNat / 16) :: hexChar (b.toNat % 16) :: hexText bs

end Sys2Proof.Machine
end

