-- ==== Sys2Proof/Machine/Crc32.lean ====
section
/-! DEFINITION. The default checksum, CRC-32/ISO-HDLC (spec/44_checksum.md R151, R152; PRESUMED, log entry 18). -/

namespace Sys2Proof.Machine

/-- One bit of 44_checksum.md R152: a logical right shift, and the reflected polynomial when the bit
shifted out is 1. -/
def crcBit (crc : BitVec 32) : BitVec 32 :=
  if crc.getLsbD 0 then (crc >>> 1) ^^^ 0xEDB88320#32 else crc >>> 1

/-- `n` repetitions of `crcBit`. -/
def crcBits : Nat → BitVec 32 → BitVec 32
  | 0, crc => crc
  | n + 1, crc => crcBits n (crcBit crc)

/-- One byte of 44_checksum.md R152. -/
def crcByte (crc : BitVec 32) (b : Byte) : BitVec 32 :=
  crcBits 8 (crc ^^^ b.zeroExtend 32)

/-- `CRC32(s)` (44_checksum.md R152): initial register and final XOR 0xFFFFFFFF, bytes in index order. -/
def crc32 (s : List Byte) : BitVec 32 :=
  s.foldl crcByte 0xFFFFFFFF#32 ^^^ 0xFFFFFFFF#32

end Sys2Proof.Machine
end

