-- ==== Sys2Proof/Machine/Rijndael.lean ====
section
/-! DEFINITION. Rijndael with block size = key size, the recommended instantiation of the open cipher
(spec/45_block_cipher.md R167 to R176; PRESUMED, log entry 18). The cipher's state is the block itself: byte `j` is
row `j mod 4`, column `j div 4` (R170). -/

namespace Sys2Proof.Machine

/-- `xtime` (45_block_cipher.md R168). -/
def xtime (a : Byte) : Byte :=
  (a <<< 1) ^^^ (if a.msb then 0x1B else 0x00)

/-- The product of the low `n` bits of `a` with `b`, by repeated `xtime` and `xor`. -/
def gmulBits : Nat → Byte → Byte → Byte
  | 0, _, _ => 0
  | n + 1, a, b => (if a.getLsbD 0 then b else 0) ^^^ gmulBits n (a >>> 1) (xtime b)

/-- `a • b` in GF(2^8) (45_block_cipher.md R168). -/
def gmul (a b : Byte) : Byte :=
  gmulBits 8 a b

/-- The multiplicative inverse in GF(2^8), 0 for 0, as `a^254` (45_block_cipher.md R169): the product of
`a^2`, `a^4`, …, `a^128`. -/
def fieldInverse (a : Byte) : Byte :=
  let a2 := gmul a a
  let a4 := gmul a2 a2
  let a8 := gmul a4 a4
  let a16 := gmul a8 a8
  let a32 := gmul a16 a16
  let a64 := gmul a32 a32
  let a128 := gmul a64 a64
  gmul a2 (gmul a4 (gmul a8 (gmul a16 (gmul a32 (gmul a64 a128)))))

/-- The S-box table of 45_block_cipher.md R169, a row per high nibble. -/
def sboxRow : Nat → List Byte
  | 0 => [0x63, 0x7c, 0x77, 0x7b, 0xf2, 0x6b, 0x6f, 0xc5, 0x30, 0x01, 0x67, 0x2b, 0xfe, 0xd7, 0xab, 0x76]
  | 1 => [0xca, 0x82, 0xc9, 0x7d, 0xfa, 0x59, 0x47, 0xf0, 0xad, 0xd4, 0xa2, 0xaf, 0x9c, 0xa4, 0x72, 0xc0]
  | 2 => [0xb7, 0xfd, 0x93, 0x26, 0x36, 0x3f, 0xf7, 0xcc, 0x34, 0xa5, 0xe5, 0xf1, 0x71, 0xd8, 0x31, 0x15]
  | 3 => [0x04, 0xc7, 0x23, 0xc3, 0x18, 0x96, 0x05, 0x9a, 0x07, 0x12, 0x80, 0xe2, 0xeb, 0x27, 0xb2, 0x75]
  | 4 => [0x09, 0x83, 0x2c, 0x1a, 0x1b, 0x6e, 0x5a, 0xa0, 0x52, 0x3b, 0xd6, 0xb3, 0x29, 0xe3, 0x2f, 0x84]
  | 5 => [0x53, 0xd1, 0x00, 0xed, 0x20, 0xfc, 0xb1, 0x5b, 0x6a, 0xcb, 0xbe, 0x39, 0x4a, 0x4c, 0x58, 0xcf]
  | 6 => [0xd0, 0xef, 0xaa, 0xfb, 0x43, 0x4d, 0x33, 0x85, 0x45, 0xf9, 0x02, 0x7f, 0x50, 0x3c, 0x9f, 0xa8]
  | 7 => [0x51, 0xa3, 0x40, 0x8f, 0x92, 0x9d, 0x38, 0xf5, 0xbc, 0xb6, 0xda, 0x21, 0x10, 0xff, 0xf3, 0xd2]
  | 8 => [0xcd, 0x0c, 0x13, 0xec, 0x5f, 0x97, 0x44, 0x17, 0xc4, 0xa7, 0x7e, 0x3d, 0x64, 0x5d, 0x19, 0x73]
  | 9 => [0x60, 0x81, 0x4f, 0xdc, 0x22, 0x2a, 0x90, 0x88, 0x46, 0xee, 0xb8, 0x14, 0xde, 0x5e, 0x0b, 0xdb]
  | 10 => [0xe0, 0x32, 0x3a, 0x0a, 0x49, 0x06, 0x24, 0x5c, 0xc2, 0xd3, 0xac, 0x62, 0x91, 0x95, 0xe4, 0x79]
  | 11 => [0xe7, 0xc8, 0x37, 0x6d, 0x8d, 0xd5, 0x4e, 0xa9, 0x6c, 0x56, 0xf4, 0xea, 0x65, 0x7a, 0xae, 0x08]
  | 12 => [0xba, 0x78, 0x25, 0x2e, 0x1c, 0xa6, 0xb4, 0xc6, 0xe8, 0xdd, 0x74, 0x1f, 0x4b, 0xbd, 0x8b, 0x8a]
  | 13 => [0x70, 0x3e, 0xb5, 0x66, 0x48, 0x03, 0xf6, 0x0e, 0x61, 0x35, 0x57, 0xb9, 0x86, 0xc1, 0x1d, 0x9e]
  | 14 => [0xe1, 0xf8, 0x98, 0x11, 0x69, 0xd9, 0x8e, 0x94, 0x9b, 0x1e, 0x87, 0xe9, 0xce, 0x55, 0x28, 0xdf]
  | 15 => [0x8c, 0xa1, 0x89, 0x0d, 0xbf, 0xe6, 0x42, 0x68, 0x41, 0x99, 0x2d, 0x0f, 0xb0, 0x54, 0xbb, 0x16]
  | _ => []

/-- The inverse S-box table of 45_block_cipher.md R169, a row per high nibble. -/
def invSboxRow : Nat → List Byte
  | 0 => [0x52, 0x09, 0x6a, 0xd5, 0x30, 0x36, 0xa5, 0x38, 0xbf, 0x40, 0xa3, 0x9e, 0x81, 0xf3, 0xd7, 0xfb]
  | 1 => [0x7c, 0xe3, 0x39, 0x82, 0x9b, 0x2f, 0xff, 0x87, 0x34, 0x8e, 0x43, 0x44, 0xc4, 0xde, 0xe9, 0xcb]
  | 2 => [0x54, 0x7b, 0x94, 0x32, 0xa6, 0xc2, 0x23, 0x3d, 0xee, 0x4c, 0x95, 0x0b, 0x42, 0xfa, 0xc3, 0x4e]
  | 3 => [0x08, 0x2e, 0xa1, 0x66, 0x28, 0xd9, 0x24, 0xb2, 0x76, 0x5b, 0xa2, 0x49, 0x6d, 0x8b, 0xd1, 0x25]
  | 4 => [0x72, 0xf8, 0xf6, 0x64, 0x86, 0x68, 0x98, 0x16, 0xd4, 0xa4, 0x5c, 0xcc, 0x5d, 0x65, 0xb6, 0x92]
  | 5 => [0x6c, 0x70, 0x48, 0x50, 0xfd, 0xed, 0xb9, 0xda, 0x5e, 0x15, 0x46, 0x57, 0xa7, 0x8d, 0x9d, 0x84]
  | 6 => [0x90, 0xd8, 0xab, 0x00, 0x8c, 0xbc, 0xd3, 0x0a, 0xf7, 0xe4, 0x58, 0x05, 0xb8, 0xb3, 0x45, 0x06]
  | 7 => [0xd0, 0x2c, 0x1e, 0x8f, 0xca, 0x3f, 0x0f, 0x02, 0xc1, 0xaf, 0xbd, 0x03, 0x01, 0x13, 0x8a, 0x6b]
  | 8 => [0x3a, 0x91, 0x11, 0x41, 0x4f, 0x67, 0xdc, 0xea, 0x97, 0xf2, 0xcf, 0xce, 0xf0, 0xb4, 0xe6, 0x73]
  | 9 => [0x96, 0xac, 0x74, 0x22, 0xe7, 0xad, 0x35, 0x85, 0xe2, 0xf9, 0x37, 0xe8, 0x1c, 0x75, 0xdf, 0x6e]
  | 10 => [0x47, 0xf1, 0x1a, 0x71, 0x1d, 0x29, 0xc5, 0x89, 0x6f, 0xb7, 0x62, 0x0e, 0xaa, 0x18, 0xbe, 0x1b]
  | 11 => [0xfc, 0x56, 0x3e, 0x4b, 0xc6, 0xd2, 0x79, 0x20, 0x9a, 0xdb, 0xc0, 0xfe, 0x78, 0xcd, 0x5a, 0xf4]
  | 12 => [0x1f, 0xdd, 0xa8, 0x33, 0x88, 0x07, 0xc7, 0x31, 0xb1, 0x12, 0x10, 0x59, 0x27, 0x80, 0xec, 0x5f]
  | 13 => [0x60, 0x51, 0x7f, 0xa9, 0x19, 0xb5, 0x4a, 0x0d, 0x2d, 0xe5, 0x7a, 0x9f, 0x93, 0xc9, 0x9c, 0xef]
  | 14 => [0xa0, 0xe0, 0x3b, 0x4d, 0xae, 0x2a, 0xf5, 0xb0, 0xc8, 0xeb, 0xbb, 0x3c, 0x83, 0x53, 0x99, 0x61]
  | 15 => [0x17, 0x2b, 0x04, 0x7e, 0xba, 0x77, 0xd6, 0x26, 0xe1, 0x69, 0x14, 0x63, 0x55, 0x21, 0x0c, 0x7d]
  | _ => []

/-- The S-box (45_block_cipher.md R169). -/
def sbox (a : Byte) : Byte :=
  (sboxRow (a.toNat / 16)).getD (a.toNat % 16) 0

/-- The inverse S-box (45_block_cipher.md R169). -/
def invSbox (a : Byte) : Byte :=
  (invSboxRow (a.toNat / 16)).getD (a.toNat % 16) 0

/-- `Nb = Nk = B / 4` (45_block_cipher.md R167). -/
def columns : BlockSize → Nat
  | .b16 => 4
  | .b24 => 6
  | .b32 => 8

/-- `Nr` (45_block_cipher.md R167). -/
def rounds : BlockSize → Nat
  | .b16 => 10
  | .b24 => 12
  | .b32 => 14

/-- `Rcon[j]` for `j ≥ 1` (45_block_cipher.md R171). -/
def rcon : Nat → Byte
  | 0 => 0x01
  | 1 => 0x01
  | n + 1 => xtime (rcon n)

/-- `RotWord` (45_block_cipher.md R171). -/
def rotWord (w : List Byte) : List Byte :=
  w.drop 1 ++ w.take 1

/-- Bytewise exclusive or. -/
def xorBytes (s t : List Byte) : List Byte :=
  List.zipWith (fun a b => a ^^^ b) s t

/-- The word xored into `W[i − Nk]` to make `W[i]`, from `W[i − 1]` (45_block_cipher.md R171). -/
def scheduleWord (nk i : Nat) (t : List Byte) : List Byte :=
  if i % nk = 0 then xorBytes ((rotWord t).map sbox) [rcon (i / nk), 0, 0, 0]
  else if 6 < nk ∧ i % nk = 4 then t.map sbox
  else t

/-- `n` more words of the expanded key (45_block_cipher.md R171); the words made so far are `ws`, the
latest first, and the next one has index `i`. -/
def expandWords (nk : Nat) : Nat → Nat → List (List Byte) → List (List Byte)
  | 0, _, ws => ws
  | n + 1, i, ws =>
    expandWords nk n (i + 1) (xorBytes (ws.getD (nk - 1) []) (scheduleWord nk i (ws.getD 0 [])) :: ws)

/-- The first `n` 4-byte words of a byte sequence. -/
def wordsOf : Nat → List Byte → List (List Byte)
  | 0, _ => []
  | n + 1, l => l.take 4 :: wordsOf n (l.drop 4)

/-- The expanded key `W[0 .. Nb*(Nr+1)]` (45_block_cipher.md R171). -/
def expandKey (B : BlockSize) (k : List Byte) : List (List Byte) :=
  (expandWords (columns B) (columns B * rounds B) (columns B) (wordsOf (columns B) k).reverse).reverse

/-- Round key `r`, words `W[r*Nb .. (r+1)*Nb]`, as the bytes xored into the state (45_block_cipher.md
R171). -/
def roundKey (B : BlockSize) (w : List (List Byte)) (r : Nat) : List Byte :=
  ((w.drop (r * columns B)).take (columns B)).flatten

/-- The shift offsets `C[r]` (45_block_cipher.md R172). -/
def shiftOffset : BlockSize → Nat → Nat
  | .b16, r => r
  | .b24, r => r
  | .b32, 0 => 0
  | .b32, 1 => 1
  | .b32, r => r + 1

/-- The state with byte `j` taken from byte `source j`. -/
def permuteBytes (B : BlockSize) (source : Nat → Nat) (s : List Byte) : List Byte :=
  (List.range B.bytes).map fun j => s.getD (source j) 0

/-- Where ShiftRows takes byte `j` from: the same row, `C[r]` columns to the right (45_block_cipher.md
R172). -/
def shiftSource (B : BlockSize) (j : Nat) : Nat :=
  4 * ((j / 4 + shiftOffset B (j % 4)) % columns B) + j % 4

/-- Where InvShiftRows takes byte `j` from: the same row, `C[r]` columns to the left (45_block_cipher.md
R172). -/
def invShiftSource (B : BlockSize) (j : Nat) : Nat :=
  4 * ((j / 4 + columns B - shiftOffset B (j % 4)) % columns B) + j % 4

/-- MixColumns on one column (45_block_cipher.md R174). -/
def mixColumn (a0 a1 a2 a3 : Byte) : List Byte :=
  [gmul 2 a0 ^^^ gmul 3 a1 ^^^ a2 ^^^ a3,
   a0 ^^^ gmul 2 a1 ^^^ gmul 3 a2 ^^^ a3,
   a0 ^^^ a1 ^^^ gmul 2 a2 ^^^ gmul 3 a3,
   gmul 3 a0 ^^^ a1 ^^^ a2 ^^^ gmul 2 a3]

/-- InvMixColumns on one column (45_block_cipher.md R174). -/
def invMixColumn (a0 a1 a2 a3 : Byte) : List Byte :=
  [gmul 0x0e a0 ^^^ gmul 0x0b a1 ^^^ gmul 0x0d a2 ^^^ gmul 0x09 a3,
   gmul 0x09 a0 ^^^ gmul 0x0e a1 ^^^ gmul 0x0b a2 ^^^ gmul 0x0d a3,
   gmul 0x0d a0 ^^^ gmul 0x09 a1 ^^^ gmul 0x0e a2 ^^^ gmul 0x0b a3,
   gmul 0x0b a0 ^^^ gmul 0x0d a1 ^^^ gmul 0x09 a2 ^^^ gmul 0x0e a3]

/-- A column operation on every column of the state. -/
def mapColumns (f : Byte → Byte → Byte → Byte → List Byte) : List Byte → List Byte
  | a0 :: a1 :: a2 :: a3 :: rest => f a0 a1 a2 a3 ++ mapColumns f rest
  | rest => rest

/-- SubBytes, ShiftRows, MixColumns, AddRoundKey: one inner round (45_block_cipher.md R175). -/
def cipherRound (B : BlockSize) (rk s : List Byte) : List Byte :=
  xorBytes (mapColumns mixColumn (permuteBytes B (shiftSource B) (s.map sbox))) rk

/-- AddRoundKey, InvMixColumns, InvShiftRows, InvSubBytes: one inner round backwards
(45_block_cipher.md R176). -/
def invCipherRound (B : BlockSize) (rk s : List Byte) : List Byte :=
  (permuteBytes B (invShiftSource B) (mapColumns invMixColumn (xorBytes s rk))).map invSbox

/-- The last round, which has no MixColumns (45_block_cipher.md R175). -/
def lastRound (B : BlockSize) (rk s : List Byte) : List Byte :=
  xorBytes (permuteBytes B (shiftSource B) (s.map sbox)) rk

/-- The last round backwards (45_block_cipher.md R176). -/
def invLastRound (B : BlockSize) (rk s : List Byte) : List Byte :=
  (permuteBytes B (invShiftSource B) (xorBytes s rk)).map invSbox

/-- Inner rounds with the given round keys, the first one first. -/
def cipherRounds (B : BlockSize) : List (List Byte) → List Byte → List Byte
  | [], s => s
  | rk :: rks, s => cipherRounds B rks (cipherRound B rk s)

/-- Inner rounds backwards with the given round keys, the last one first. -/
def invCipherRounds (B : BlockSize) : List (List Byte) → List Byte → List Byte
  | [], s => s
  | rk :: rks, s => invCipherRound B rk (invCipherRounds B rks s)

/-- The round keys 1 to `Nr − 1` of the inner rounds. -/
def innerKeys (B : BlockSize) (w : List (List Byte)) : List (List Byte) :=
  (List.range (rounds B - 1)).map fun r => roundKey B w (r + 1)

/-- `E(k, b)` on byte sequences (45_block_cipher.md R175). -/
def rijndaelEncBytes (B : BlockSize) (k b : List Byte) : List Byte :=
  let w := expandKey B k
  lastRound B (roundKey B w (rounds B)) (cipherRounds B (innerKeys B w) (xorBytes b (roundKey B w 0)))

/-- `D(k, c)` on byte sequences (45_block_cipher.md R176). -/
def rijndaelDecBytes (B : BlockSize) (k c : List Byte) : List Byte :=
  let w := expandKey B k
  xorBytes (invCipherRounds B (innerKeys B w) (invLastRound B (roundKey B w (rounds B)) c)) (roundKey B w 0)

/-- Rijndael's `E` as the cipher interface has it (45_block_cipher.md R160, R175). -/
def rijndaelEnc (B : BlockSize) (k b : Block B) : Block B :=
  blockOfList B (rijndaelEncBytes B k.toList b.toList)

/-- Rijndael's `D` as the cipher interface has it (45_block_cipher.md R160, R176). -/
def rijndaelDec (B : BlockSize) (k c : Block B) : Block B :=
  blockOfList B (rijndaelDecBytes B k.toList c.toList)

end Sys2Proof.Machine
end

