-- ==== Sys2Proof/Machine/Instances.lean ====
section
/-! DEFINITION. The two named configurations of spec/45_block_cipher.md (R166; R167 to R176), both with the default
checksum (spec/44_checksum.md R151) and the default `MAX_PT` (spec/00_scope.md R4). The engine's own configuration
stays open; these are the ones the spec's test vectors are given for (spec/95_test_vectors.md). -/

namespace Sys2Proof.Machine

/-- The default `MAX_PT`, 2^32 − 37 (00_scope.md R4). -/
def defaultMaxPt : Fin 4294967260 :=
  4294967259

/-- XORTEST's `E` and `D` (45_block_cipher.md R166): bytewise exclusive or with the key. -/
def xorBlock (B : BlockSize) (k b : Block B) : Block B :=
  Vector.ofFn fun j => b[j] ^^^ k[j]

/-- XORTEST with CRC-32 (45_block_cipher.md R166; not the hardware's cipher). -/
def xorTestConfig : Config where
  E := xorBlock
  D := xorBlock
  hash32 := crc32
  maxPt := defaultMaxPt

/-- RIJNDAEL with CRC-32 (45_block_cipher.md R167 to R176). -/
def rijndaelConfig : Config where
  E := rijndaelEnc
  D := rijndaelDec
  hash32 := crc32
  maxPt := defaultMaxPt

end Sys2Proof.Machine
end

