-- ==== Sys2Proof/Safety.lean ====
section
/-! DEFINITION. What holds in every reachable state (spec/10_state.md R21; spec/30_encoding.md R56, R57), and what a
safe step is (spec/30_encoding.md R66: the engine never stops accepting commands). -/

namespace Sys2Proof.Machine

/-- The invariants of 10_state.md R21: (a) a live context has a legal block size; (b) `KEY[BS .. 32]` is
zero; (c) with no context `KEY` is all zero; (d) `BS` is 0, 16, 24 or 32, and while it is 0 (no
construction has succeeded since reset) there is no context and no command has been counted. -/
structure Inv (s : State) : Prop where
  liveSize : s.live = true → s.bs.toNat = 16 ∨ s.bs.toNat = 24 ∨ s.bs.toNat = 32
  keyTail : s.key.toList.drop s.bs.toNat = List.replicate (32 - s.bs.toNat) 0
  deadKey : s.live = false → s.key = Vector.replicate 32 0
  sizeLegal : s.bs.toNat = 0 ∨ s.bs.toNat = 16 ∨ s.bs.toNat = 24 ∨ s.bs.toNat = 32
  sizeZero : s.bs.toNat = 0 → s.live = false ∧ s.encCnt = 0 ∧ s.decCnt = 0

/-- A response the engine may emit: an error carries no payload (30_encoding.md R57), and the payload
length fits the `len` field (R56). -/
def legalResponse (st : Status) (payload : List Byte) : Prop :=
  (st ≠ .ok → payload = []) ∧ payload.length < 2 ^ 32

/-- The response stream is a sequence of whole legal response packets (30_encoding.md R56, R57). -/
def ResponsesWhole (s : State) : Prop :=
  ∃ rs : List (Status × List Byte),
    (∀ r ∈ rs, legalResponse r.1 r.2) ∧ s.rspOut = rs.flatMap fun r => responsePacket r.1 r.2

/-- Commands executed one after another (20_memory.md R38); a fault or refusal ends the run. -/
def execAll : List Instr → State → Host.Outcome State Fault Refusal
  | [], s => .next s
  | i :: is, s =>
    match exec i s with
    | .next t => execAll is t
    | .fault r => .fault r
    | .refused r => .refused r

/-- `n` steps of the engine (70_reset_and_hazards.md R244); a fault or refusal ends the run. -/
def runSteps : Nat → State → Host.Outcome State Fault Refusal
  | 0, s => .next s
  | n + 1, s =>
    match step s with
    | .next t => runSteps n t
    | .fault r => .fault r
    | .refused r => .refused r

/-- A step that neither faults nor is refused. -/
def StepAnswers (s : State) : Prop :=
  ∃ t, step s = .next t

end Sys2Proof.Machine
end

