-- ==== Sys2Proof/Certificates/Slice0/Obligations.lean ====
section
/-! DEFINITION. The statements about the Frame Cipher Engine, one `def Obligations.<Name> : Prop` each, in the order of
OBLIGATIONS.json. The docstring of each names the rules of spec/ it formalises. -/

open Sys2Proof Sys2Proof.Machine

/-! ### Encoding and the command stream -/

/-- 30_encoding.md R51, R53, R59: a packet at the head of the stream decodes to the command it encodes,
with every payload byte, and the stream continues right behind it. -/
def Obligations.DecodeOfEncode : Prop :=
  ∀ (i : Instr) (rest : List Byte), i.wellFormed = true → decode (encode i ++ rest) = .command i rest

/-- 30_encoding.md R51, R53, R59: the other direction: when the decoder answers a command, the bytes it
took are exactly that command's packet, so no two byte strings stand for one command. -/
def Obligations.EncodeOfDecode : Prop :=
  ∀ (bytes rest : List Byte) (i : Instr), decode bytes = .command i rest →
    i.wellFormed = true ∧ bytes = encode i ++ rest

/-- 30_encoding.md R59, with packets of 95_test_vectors.md (V-K1, V-K16's header, V-X6, V-X7's header,
V-K25, V-X8, PRG1 step 6) written out by hand. -/
def Obligations.PacketsOfTheSpec : Prop :=
  decode [0x01, 0x02, 0x00, 0x00, 0x00, 0x80, 0x00] = .command (.newsz [0x80, 0x00]) [] ∧
  decode [0x02, 0x03, 0x00, 0x00, 0x00, 0xa0, 0xa1, 0xa2, 0x06] = .command (.newkey [0xa0, 0xa1, 0xa2]) [0x06] ∧
  decode [0x03, 0x03, 0x00, 0x00, 0x00, 0x61, 0x62, 0x63] = .command (.enc [0x61, 0x62, 0x63]) [] ∧
  decode [0x04, 0x01, 0x00, 0x00, 0x00, 0xff] = .command (.dec [0xff]) [] ∧
  decode [0x05, 0x00, 0x00, 0x00, 0x00] = .command (.dispose []) [] ∧
  decode [0x06, 0x00, 0x00, 0x00, 0x00] = .command (.rdenc []) [] ∧
  decode [0x07, 0x00, 0x00, 0x00, 0x00] = .command (.rddec []) []

/-- 00_scope.md R8, 30_encoding.md R53: a step that is no reset executes the command at the head of the
stream, on the state whose stream continues behind that command's packet, with one step gone by on the
reset input (log entry 9). The entropy condition says a NEWSZ whose draw has not arrived does not start
(60_exceptions.md R214; log entries 4 and 16); it holds trivially of every other command. -/
def Obligations.StepRunsDecodedCommand : Prop :=
  ∀ (s : State) (i : Instr) (rest : List Byte), decode s.cmdIn = .command i rest →
    entropyNeed i ≤ s.entropyIn.length → dueReset s.resetIn = none →
    step s = exec i { s with cmdIn := rest, resetIn := countdown 1 s.resetIn }

/-- 30_encoding.md R63: while fewer than `5 + len` bytes of a packet have arrived, legal opcode or not,
the engine executes nothing, emits nothing and keeps its state, and a step changes nothing but that the
next reset comes one step nearer (log entry 9); with no reset to come, the missing bytes make it a whole
packet; a reset ends the wait too (the queue of answered entropy bytes stays, log entry 11). -/
def Obligations.TruncatedPacketWaits : Prop :=
  ∀ (op : Byte) (payload : List Byte) (k : Nat) (s : State), payload.length < 2 ^ 32 →
    k < (commandPacket op payload).length → s.cmdIn = (commandPacket op payload).take k →
    serve s = .next s ∧
    (dueReset s.resetIn = none → step s = .next { s with resetIn := countdown 1 s.resetIn }) ∧
    (s.resetIn = [] →
      (hostSend ((commandPacket op payload).drop k) s).cmdIn = commandPacket op payload ∧
      decode (hostSend ((commandPacket op payload).drop k) s).cmdIn ≠ .truncated ∧
      step (hostReset 0 s) = .next { State.reset with entropyIn := s.entropyIn })

/-- 30_encoding.md R60: opcodes 0x00 and 0x08 to 0xFF, and only they, are no command's; such a packet is
consumed in full, changes no register and is answered IllegalCommand (0x81, no payload). Stated of
`serve`, what a step that is no reset does (ResetIsAStep). -/
def Obligations.IllegalOpcodeConsumed : Prop :=
  (∀ (op : Byte) (payload : List Byte), commandOf op payload = none ↔ op = 0 ∨ 8 ≤ op.toNat) ∧
  ∀ (op : Byte) (payload rest : List Byte) (s : State), (op = 0 ∨ 8 ≤ op.toNat) → payload.length < 2 ^ 32 →
    s.cmdIn = commandPacket op payload ++ rest →
    serve s = .next { s with cmdIn := rest, rspOut := s.rspOut ++ [0x81, 0x00, 0x00, 0x00, 0x00] }

/-- 30_encoding.md R61: every row of the table of offending lengths. The IllegalCommand rows are stated
of `serve`, what a step that is no reset does (ResetIsAStep), since the whole packet is consumed; NEWKEY's and DEC's rows are the source's own errors. -/
def Obligations.OffendingLengths : Prop :=
  (∀ (i : Instr) (rest : List Byte) (s : State), i.wellFormed = true →
    i.lenAllowed engine.maxPt.val = false → s.cmdIn = encode i ++ rest →
    serve s = .next { s with cmdIn := rest, rspOut := s.rspOut ++ [0x81, 0x00, 0x00, 0x00, 0x00] }) ∧
  (∀ (key : List Byte) (s : State), key.length ≠ 16 → key.length ≠ 24 → key.length ≠ 32 →
    exec (.newkey key) s = .next { s with rspOut := s.rspOut ++ [0x01, 0x00, 0x00, 0x00, 0x00] }) ∧
  (∀ (c : List Byte) (s : State) (B : BlockSize), s.live = true → s.bs.toNat = B.bytes →
    (c.length = 0 ∨ c.length % B.bytes ≠ 0) →
    exec (.dec c) s = .next { s with
      decCnt := s.decCnt + 1, rspOut := s.rspOut ++ [0x02, 0x00, 0x00, 0x00, 0x00] })

/-- 20_memory.md R38: whole packets on the stream are executed one at a time in the order they stand
there, each on the state the one before left; running the engine for as many steps as there are packets
is executing the commands in order. (Premises: no NEWSZ among them has to wait, log entry 4, and the next
reset, if any, comes after them, log entry 9; ResetBetweenCommands is the case of an earlier one.) -/
def Obligations.StreamRunsInOrder : Prop :=
  ∀ (is : List Instr) (rest : List Byte) (s : State), (∀ i ∈ is, i.wellFormed = true) →
    (is.map entropyNeed).sum ≤ s.entropyIn.length → (∀ r later, s.resetIn = r :: later → is.length ≤ r.after) →
    s.cmdIn = is.flatMap encode ++ rest →
    runSteps is.length s = execAll is { s with cmdIn := rest, resetIn := countdown is.length s.resetIn }

/-- 30_encoding.md R64: for ENC, DEC and NEWKEY the textual line with an operand in hexadecimal assembles
to the command with exactly those bytes, comment or not; `""` is the empty operand; the three operand-free
lines and the three legal NEWSZ lines assemble to their packets; and a NEWSZ line with any decimal numeral
(digits `ds`, at least one) assembles to NEWSZ of that number in two little-endian bytes when it is at most
65535. That a larger number is no line is the model's reading (log entry 22). -/
def Obligations.AssemblyLines : Prop :=
  (∀ (p : List Byte) (comment : List Char), p ≠ [] →
    assemble (['E', 'N', 'C', ' '] ++ hexText p ++ ' ' :: ';' :: comment) = some (.enc p) ∧
    assemble (['D', 'E', 'C', ' '] ++ hexText p) = some (.dec p) ∧
    assemble (['N', 'E', 'W', 'K', 'E', 'Y', ' '] ++ hexText p) = some (.newkey p)) ∧
  assemble "ENC \"\"".toList = some (.enc []) ∧ assemble "DEC \"\"".toList = some (.dec []) ∧
  assembledPacket "DISPOSE".toList = some [0x05, 0, 0, 0, 0] ∧
  assembledPacket "RDENC".toList = some [0x06, 0, 0, 0, 0] ∧
  assembledPacket "RDDEC".toList = some [0x07, 0, 0, 0, 0] ∧
  assembledPacket "NEWSZ 128".toList = some [0x01, 2, 0, 0, 0, 0x80, 0x00] ∧
  assembledPacket "NEWSZ 192".toList = some [0x01, 2, 0, 0, 0, 0xc0, 0x00] ∧
  assembledPacket "NEWSZ 256".toList = some [0x01, 2, 0, 0, 0, 0x00, 0x01] ∧
  ∀ ds : List Nat, ds ≠ [] → (∀ d ∈ ds, d < 10) →
    assemble (['N', 'E', 'W', 'S', 'Z', ' '] ++ ds.map hexChar) =
      if ds.foldl (fun n d => 10 * n + d) 0 < 65536
      then some (.newsz (leBytes 2 (ds.foldl (fun n d => 10 * n + d) 0))) else none

/-! ### Responses and errors -/

/-- 60_exceptions.md R201 with 30_encoding.md R56: the seven status codes, and the response packet: status,
`len` in four little-endian bytes, payload. -/
def Obligations.ResponseFormat : Prop :=
  (statusCode .ok = 0x00 ∧ statusCode .invalidKeySize = 0x01 ∧ statusCode .invalidCiphertextLength = 0x02 ∧
    statusCode .malformedFrame = 0x03 ∧ statusCode .integrityCheckFailed = 0x04 ∧
    statusCode .noContext = 0x80 ∧ statusCode .illegalCommand = 0x81) ∧
  ∀ (st : Status) (payload : List Byte), payload.length < 2 ^ 32 →
    ∃ l0 l1 l2 l3 : Byte, responsePacket st payload = statusCode st :: l0 :: l1 :: l2 :: l3 :: payload ∧
      l0.toNat + 256 * l1.toNat + 65536 * l2.toNat + 16777216 * l3.toNat = payload.length

/-- 60_exceptions.md R201's "raised by" column: the statuses a command can end with. -/
def Sys2Proof.Machine.mayEndWith : Instr → List Status
  | .newsz _ => [.ok, .illegalCommand, .invalidKeySize]
  | .newkey _ => [.ok, .invalidKeySize]
  | .enc _ => [.ok, .illegalCommand, .noContext]
  | .dec _ => [.ok, .noContext, .invalidCiphertextLength, .malformedFrame, .integrityCheckFailed]
  | .dispose _ => [.ok, .illegalCommand]
  | .rdenc _ => [.ok, .illegalCommand]
  | .rddec _ => [.ok, .illegalCommand]

/-- 30_encoding.md R56, R57; 60_exceptions.md R201: an executed command sends exactly one response, with a
status that command may end with, and an error's payload is empty. -/
def Obligations.OneResponsePerCommand : Prop :=
  ∀ (i : Instr) (s t : State), exec i s = .next t → entropyNeed i ≤ s.entropyIn.length →
    ∃ st payload, st ∈ mayEndWith i ∧ (st ≠ .ok → payload = []) ∧
      t.rspOut = s.rspOut ++ statusCode st :: (leBytes 4 payload.length ++ payload)

/-- 60_exceptions.md R210: a command that ends with an error writes no register and draws no entropy;
exactly a DEC in a live context has counted itself before the error (R203 to R205); `LIVE` and the key
stay. -/
def Obligations.ErrorsLeaveTheState : Prop :=
  ∀ (i : Instr) (s t : State) (st : Status), exec i s = .next t → st ≠ .ok →
    t.rspOut = s.rspOut ++ [statusCode st, 0, 0, 0, 0] →
    ((∃ c, i = .dec c) ∧ s.live = true → t = { s with decCnt := s.decCnt + 1, rspOut := t.rspOut }) ∧
      (¬((∃ c, i = .dec c) ∧ s.live = true) → t = { s with rspOut := t.rspOut })

/-- 10_state.md R23: the access matrix: what each command leaves unchanged. No command touches the
command stream or the reset input; only NEWSZ draws entropy, exactly the bytes it needs, from the front of
the queue of answered bytes (that queue is the model's choice, log entry 4), or waits with nothing changed
while they have not arrived (log entry 16); only constructions write `BS`; only
constructions and DISPOSE write `LIVE` and `KEY`; ENC writes ENC_CNT only, DEC writes DEC_CNT only, the
counter reads write nothing. -/
def Obligations.AccessMatrix : Prop :=
  ∀ (i : Instr) (s t : State), exec i s = .next t →
    t.cmdIn = s.cmdIn ∧ t.resetIn = s.resetIn ∧
    match i with
    | .newsz p =>
      (s.entropyIn.length < entropyNeed (.newsz p) → t = s) ∧
      (entropyNeed (.newsz p) ≤ s.entropyIn.length →
        t.entropyIn = s.entropyIn.drop (entropyNeed (.newsz p))) ∧ s.rspOut <+: t.rspOut
    | .newkey _ => t.entropyIn = s.entropyIn ∧ s.rspOut <+: t.rspOut
    | .enc _ => t = { s with encCnt := t.encCnt, rspOut := t.rspOut } ∧ s.rspOut <+: t.rspOut
    | .dec _ => t = { s with decCnt := t.decCnt, rspOut := t.rspOut } ∧ s.rspOut <+: t.rspOut
    | .dispose _ => t = { s with live := t.live, key := t.key, rspOut := t.rspOut } ∧ s.rspOut <+: t.rspOut
    | .rdenc _ => t = { s with rspOut := t.rspOut } ∧ s.rspOut <+: t.rspOut
    | .rddec _ => t = { s with rspOut := t.rspOut } ∧ s.rspOut <+: t.rspOut

/-! ### Construction and disposal -/

/-- 40_construction.md R80: NEWSZ in every case. A payload that is not two bytes is IllegalCommand, an
unsupported size InvalidKeySize, both with nothing else changed; with the draw `rnd` at hand it installs
`rnd` whatever the state was, and takes exactly those bytes off the entropy input. That the draw is read
from a queue of bytes the source has answered is the model's choice (log entry 4). -/
def Obligations.NewszConstructs : Prop :=
  (∀ (payload : List Byte) (s : State), payload.length ≠ 2 →
    exec (.newsz payload) s = .next { s with rspOut := s.rspOut ++ [0x81, 0, 0, 0, 0] }) ∧
  (∀ (lo hi : Byte) (s : State), lo.toNat + 256 * hi.toNat ≠ 128 → lo.toNat + 256 * hi.toNat ≠ 192 →
    lo.toNat + 256 * hi.toNat ≠ 256 →
    exec (.newsz [lo, hi]) s = .next { s with rspOut := s.rspOut ++ [0x01, 0, 0, 0, 0] }) ∧
  (∀ (lo hi : Byte) (rnd later : List Byte) (s : State),
    (lo.toNat + 256 * hi.toNat = 128 ∨ lo.toNat + 256 * hi.toNat = 192 ∨ lo.toNat + 256 * hi.toNat = 256) →
    8 * rnd.length = lo.toNat + 256 * hi.toNat → s.entropyIn = rnd ++ later →
    ∃ t, exec (.newsz [lo, hi]) s = .next t ∧
      t.live = true ∧ t.key.toList = rnd ++ List.replicate (32 - rnd.length) 0 ∧ t.bs.toNat = rnd.length ∧
      t.encCnt = 0 ∧ t.decCnt = 0 ∧ t.entropyIn = later ∧ t.cmdIn = s.cmdIn ∧ t.resetIn = s.resetIn ∧
      t.rspOut = s.rspOut ++ [0x00, 0, 0, 0, 0])

/-- 40_construction.md R81, R82: NEWKEY installs a key of 16, 24 or 32 bytes, any bytes, in every state,
and every other length is InvalidKeySize with nothing else changed. -/
def Obligations.NewkeyConstructs : Prop :=
  ∀ (key : List Byte) (s : State),
    if key.length = 16 ∨ key.length = 24 ∨ key.length = 32 then
      ∃ t, exec (.newkey key) s = .next t ∧
        t.live = true ∧ t.key.toList = key ++ List.replicate (32 - key.length) 0 ∧ t.bs.toNat = key.length ∧
        t.encCnt = 0 ∧ t.decCnt = 0 ∧ t.entropyIn = s.entropyIn ∧ t.cmdIn = s.cmdIn ∧
        t.resetIn = s.resetIn ∧ t.rspOut = s.rspOut ++ [0x00, 0, 0, 0, 0]
    else exec (.newkey key) s = .next { s with rspOut := s.rspOut ++ [0x01, 0, 0, 0, 0] }

/-- 40_construction.md R86: a construction that ends with an error changes no register and consumes no
entropy: its response is all there is. -/
def Obligations.FailedConstructionChangesNothing : Prop :=
  ∀ (i : Instr) (s t : State), ((∃ p, i = .newsz p) ∨ ∃ k, i = .newkey k) → exec i s = .next t →
    (t.rspOut = s.rspOut ++ [0x01, 0, 0, 0, 0] ∨ t.rspOut = s.rspOut ++ [0x81, 0, 0, 0, 0]) →
    t = { s with rspOut := t.rspOut }

/-- 60_exceptions.md R214, 93_implementation_defined.md U8: a legal NEWSZ at the head of the stream waits,
with nothing changed, while fewer than `bits / 8` bytes have been answered, and the step after the rest
arrives completes it with all of them. The hold on a queue of answered bytes is the model's choice (log
entries 4 and 16), and so is the countdown to the next reset (log entry 9); that reset ends the wait too
(ResetIsAStep). -/
def Obligations.NewszWaitsForEntropy : Prop :=
  ∀ (B : BlockSize) (rest more : List Byte) (s : State), s.cmdIn = encode (.newsz (leBytes 2 (8 * B.bytes))) ++ rest →
    s.entropyIn.length < B.bytes → dueReset s.resetIn = none → (s.entropyIn ++ more).length = B.bytes →
    step s = .next { s with resetIn := countdown 1 s.resetIn } ∧
    ∃ t, step (entropyAnswer more s) = .next t ∧ t.live = true ∧ t.bs.toNat = B.bytes ∧
      t.key.toList.take B.bytes = s.entropyIn ++ more ∧ t.entropyIn = [] ∧ t.cmdIn = rest

/-- 40_construction.md R83: DISPOSE zeroes all 32 key bytes and clears LIVE, keeps BS and both counters,
and answers OK in every state; repeated it only answers OK again; with a payload it is IllegalCommand. -/
def Obligations.DisposeWipes : Prop :=
  (∀ s : State, ∃ t, exec (.dispose []) s = .next t ∧
    t.key.toList = List.replicate 32 0 ∧ t.live = false ∧ t.bs = s.bs ∧ t.encCnt = s.encCnt ∧
    t.decCnt = s.decCnt ∧ t.entropyIn = s.entropyIn ∧ t.cmdIn = s.cmdIn ∧ t.resetIn = s.resetIn ∧
    t.rspOut = s.rspOut ++ [0x00, 0, 0, 0, 0] ∧
    exec (.dispose []) t = .next { t with rspOut := t.rspOut ++ [0x00, 0, 0, 0, 0] }) ∧
  ∀ (payload : List Byte) (s : State), payload ≠ [] →
    exec (.dispose payload) s = .next { s with rspOut := s.rspOut ++ [0x81, 0, 0, 0, 0] }

/-- 70_reset_and_hazards.md R237, 10_state.md R11: commands other than ENC and DEC, then one DISPOSE, leave
no trace of the key there was: the state after them, and after anything that follows, is the same
whatever the key. (A NEWSZ whose draw is unanswered counts as executed with nothing changed and nothing
sent: log entry 16.) -/
def Obligations.DisposeLeavesNoKeyTrace : Prop :=
  ∀ (is js : List Instr) (s : State) (k k' : Vector Byte 32),
    (∀ i ∈ is, (∀ p, i ≠ .enc p) ∧ ∀ c, i ≠ .dec c) →
    execAll (is ++ .dispose [] :: js) { s with key := k } = execAll (is ++ .dispose [] :: js) { s with key := k' }

/-- 70_reset_and_hazards.md R237, 10_state.md R11: the same with ENC and DEC among the commands before the
DISPOSE. Whatever commands complete under one key complete under the other; after the DISPOSE the two
states differ in the responses already sent only; and any further commands complete from both, send the
same bytes and leave states that differ in those earlier responses only. (That a NEWSZ whose draw is
unanswered completes, with nothing changed and nothing sent, is the model's choice, log entry 16.) -/
def Obligations.DisposeSufficesOnEveryPath : Prop :=
  ∀ (is js : List Instr) (s t : State) (k k' : Vector Byte 32),
    execAll is { s with key := k } = .next t →
    ∃ t' u, execAll is { s with key := k' } = .next t' ∧ exec (.dispose []) t = .next u ∧
      exec (.dispose []) t' = .next { u with rspOut := t'.rspOut ++ [0x00, 0, 0, 0, 0] } ∧
      ∃ v r, execAll js u = .next v ∧ v.rspOut = u.rspOut ++ r ∧
        execAll js { u with rspOut := t'.rspOut ++ [0x00, 0, 0, 0, 0] } =
          .next { v with rspOut := t'.rspOut ++ [0x00, 0, 0, 0, 0] ++ r }

/-! ### Encryption -/

/-- 41_encrypt.md R101: `PadLen(L, B)` is below `B`, makes the frame a whole number of blocks, is the
least number that does, is 0 where the bare formula gives `B`, and has period `B`. -/
def Obligations.PaddingLength : Prop :=
  ∀ (L : Nat) (B : BlockSize),
    padLen L B.bytes < B.bytes ∧ (5 + L + padLen L B.bytes) % B.bytes = 0 ∧
    (∀ P, (5 + L + P) % B.bytes = 0 → padLen L B.bytes ≤ P) ∧
    ((L + 5) % B.bytes = 0 → padLen L B.bytes = 0) ∧ padLen (L + B.bytes) B.bytes = padLen L B.bytes

/-- 20_memory.md R33: what the two byte primitives of the frame buffer do: a byte written is read back, a
byte not written stays. That an access answers none (a fault, which R33 only permits) exactly when its
`requires` clause is violated is the model's choice (log entry 6). -/
def Obligations.FrameBufferAccess : Prop :=
  ∀ (a : Nat) (s fb : List Byte),
    (memWriteBytes a s fb = none ↔ fb.length < a + s.length) ∧
    (∀ n, memReadBytes a n fb = none ↔ fb.length < a + n) ∧
    ∀ fb', memWriteBytes a s fb = some fb' →
      fb'.length = fb.length ∧ memReadBytes a s.length fb' = some s ∧
      ∀ j, (j < a ∨ a + s.length ≤ j) → fb'[j]? = fb[j]?

/-- 41_encrypt.md R103, 20_memory.md R34: in a buffer of `5 + L + P` bytes, whatever it holds, `Pack`
leaves the padding length, the checksum little-endian, the plaintext, and `P` bytes 0x00. -/
def Obligations.PackFillsTheFrame : Prop :=
  ∀ (P : Nat) (chk : BitVec 32) (p fb : List Byte), P < 256 → fb.length = 5 + p.length + P →
    ∃ c0 c1 c2 c3 : Byte, chk = c3 ++ c2 ++ c1 ++ c0 ∧
      pack P chk p fb = some (BitVec.ofNat 8 P :: c0 :: c1 :: c2 :: c3 :: (p ++ List.replicate P 0x00))

/-- 41_encrypt.md R105, 42_decrypt.md R122, 20_memory.md R42: on whole blocks the two datapaths keep the
length, and block `i` of the output is the cipher of block `i` of the input under the key alone; so equal
input blocks give equal output blocks (R106). For every configuration. -/
def Obligations.EcbBlockByBlock : Prop :=
  ∀ (cfg : Config) (B : BlockSize) (k : Block B) (fb : List Byte), fb.length % B.bytes = 0 →
    (ecbEnc cfg B k fb).length = fb.length ∧ (ecbDec cfg B k fb).length = fb.length ∧
    (∀ i, i < fb.length / B.bytes →
      blockOfList B ((ecbEnc cfg B k fb).drop (i * B.bytes)) = cfg.E B k (blockOfList B (fb.drop (i * B.bytes))) ∧
      blockOfList B ((ecbDec cfg B k fb).drop (i * B.bytes)) = cfg.D B k (blockOfList B (fb.drop (i * B.bytes)))) ∧
    ∀ i j, i < fb.length / B.bytes → j < fb.length / B.bytes →
      blockOfList B (fb.drop (i * B.bytes)) = blockOfList B (fb.drop (j * B.bytes)) →
      blockOfList B ((ecbEnc cfg B k fb).drop (i * B.bytes)) =
        blockOfList B ((ecbEnc cfg B k fb).drop (j * B.bytes))

/-- 41_encrypt.md R100, R103, R104, R105, R108: ENC in every case. Too long: IllegalCommand, nothing
counted. No context: NoContext, nothing counted. Otherwise ENC_CNT is incremented and the response is the
block-by-block encryption, under `KEY[0 .. BS]`, of the frame `[P] ++ le_32(hash32(p)) ++ p ++ 0x00^P`;
nothing else changes. -/
def Obligations.EncAnswersCiphertext : Prop :=
  ∀ (p : List Byte) (s : State),
    (engine.maxPt.val < p.length →
      exec (.enc p) s = .next { s with rspOut := s.rspOut ++ [0x81, 0, 0, 0, 0] }) ∧
    (p.length ≤ engine.maxPt.val → s.live = false →
      exec (.enc p) s = .next { s with rspOut := s.rspOut ++ [0x80, 0, 0, 0, 0] }) ∧
    ∀ B : BlockSize, p.length ≤ engine.maxPt.val → s.live = true → s.bs.toNat = B.bytes →
      exec (.enc p) s = .next { s with
        encCnt := s.encCnt + 1
        rspOut := s.rspOut ++ responsePacket .ok
          (ecbEnc engine B (blockOfList B (s.key.toList.take B.bytes))
            (frameBytes (padLen p.length B.bytes) (engine.hash32 p) p
              (List.replicate (padLen p.length B.bytes) 0x00))) }

/-- 41_encrypt.md R102: the ciphertext of a successful ENC has length `ceil((L + 5) / BS) * BS`: a positive
multiple of BS, at most `L + 5 + BS − 1`, and within the response's 32-bit `len`. -/
def Obligations.CiphertextLength : Prop :=
  ∀ (p : List Byte) (s : State) (B : BlockSize), p.length ≤ engine.maxPt.val → s.live = true →
    s.bs.toNat = B.bytes →
    ∃ t c, exec (.enc p) s = .next t ∧ t.rspOut = s.rspOut ++ responsePacket .ok c ∧
      c.length = (p.length + 5 + (B.bytes - 1)) / B.bytes * B.bytes ∧
      c.length = 5 + p.length + padLen p.length B.bytes ∧
      c.length % B.bytes = 0 ∧ B.bytes ≤ c.length ∧ c.length ≤ p.length + 5 + B.bytes - 1 ∧
      c.length ≤ 4294967295

/-- 41_encrypt.md R106, 43_counters.md R145, 60_exceptions.md R215: what ENC and DEC answer depends on the
block size, on `KEY[0 .. BS]` and on the payload only: two engines with the same key, whatever their
counters, streams and history, send the same bytes. -/
def Obligations.AnswersDependOnKeyAndPayload : Prop :=
  ∀ (s s' : State) (B : BlockSize) (p : List Byte), s.live = true → s'.live = true →
    s.bs.toNat = B.bytes → s'.bs.toNat = B.bytes → s.key.toList.take B.bytes = s'.key.toList.take B.bytes →
    (∃ t t' r, exec (.enc p) s = .next t ∧ exec (.enc p) s' = .next t' ∧
      t.rspOut = s.rspOut ++ r ∧ t'.rspOut = s'.rspOut ++ r) ∧
    ∃ t t' r, exec (.dec p) s = .next t ∧ exec (.dec p) s' = .next t' ∧
      t.rspOut = s.rspOut ++ r ∧ t'.rspOut = s'.rspOut ++ r

/-! ### Decryption -/

/-- 42_decrypt.md R120 to R126, R129, R130: DEC in every case, in the order the tests are made. No
context: NoContext, nothing counted. Otherwise DEC_CNT is incremented whatever follows, nothing else
changes, and the answer is the first of: InvalidCiphertextLength; MalformedFrame when `5 + P > FL`;
IntegrityCheckFailed when the checksum of `FB[5 .. FL − P]` differs from frame bytes 1 to 4; OK with
that slice. `P < BS` and the filler are not tested. -/
def Obligations.DecAnswers : Prop :=
  ∀ (c : List Byte) (s : State),
    (s.live = false → exec (.dec c) s = .next { s with rspOut := s.rspOut ++ [0x80, 0, 0, 0, 0] }) ∧
    ∀ (B : BlockSize) (fb : List Byte), s.live = true → s.bs.toNat = B.bytes →
      fb = ecbDec engine B (blockOfList B (s.key.toList.take B.bytes)) c →
      exec (.dec c) s = .next { s with
        decCnt := s.decCnt + 1
        rspOut := s.rspOut ++
          if c.length = 0 ∨ c.length % B.bytes ≠ 0 then [0x02, 0, 0, 0, 0]
          else if 5 + (fb.getD 0 0).toNat > fb.length then [0x03, 0, 0, 0, 0]
          else if (engine.hash32 ((fb.drop 5).take (fb.length - (fb.getD 0 0).toNat - 5))).toNat ≠
              fromLe ((fb.drop 1).take 4) then [0x04, 0, 0, 0, 0]
          else responsePacket .ok ((fb.drop 5).take (fb.length - (fb.getD 0 0).toNat - 5)) }

/-- 42_decrypt.md R126: any filler bytes, as many as the padding-length byte can say (BS and more of them
too), and in any state with the key (a replay too): DEC of such a frame's ciphertext answers the
plaintext. Rests on the inverse law of the open cipher (45_block_cipher.md R161; log entry 1). -/
def Obligations.DecAcceptsAnyFiller : Prop :=
  ∀ (p filler : List Byte) (s : State) (B : BlockSize), s.live = true → s.bs.toNat = B.bytes →
    filler.length < 256 → (5 + p.length + filler.length) % B.bytes = 0 →
    exec (.dec (ecbEnc engine B (blockOfList B (s.key.toList.take B.bytes))
        (frameBytes filler.length (engine.hash32 p) p filler))) s =
      .next { s with decCnt := s.decCnt + 1, rspOut := s.rspOut ++ responsePacket .ok p }

/-- 42_decrypt.md R127, for every plaintext ENC accepts and every block size: ENC answers OK with some
`c`, and DEC of that `c`, in any live state with the same key and block size, answers OK with the
plaintext. Rests on the inverse law of the open cipher (45_block_cipher.md R161; log entry 1). -/
def Obligations.RoundTrip : Prop :=
  ∀ (p : List Byte) (s : State) (B : BlockSize), p.length ≤ engine.maxPt.val → s.live = true →
    s.bs.toNat = B.bytes →
    ∃ t c, exec (.enc p) s = .next t ∧ t.rspOut = s.rspOut ++ responsePacket .ok c ∧
      ∀ s' : State, s'.live = true → s'.bs = s.bs →
        s'.key.toList.take B.bytes = s.key.toList.take B.bytes →
        exec (.dec c) s' = .next { s' with
          decCnt := s'.decCnt + 1, rspOut := s'.rspOut ++ responsePacket .ok p }

/-! ### Counters -/

/-- 43_counters.md R140: the increment wraps at 2^16 and does nothing else. -/
def Obligations.IncrementWraps : Prop :=
  (∀ v : BitVec 16, (inc16 v).toNat = (v.toNat + 1) % 65536) ∧ inc16 0xFFFF = 0

/-- 43_counters.md R143: RDENC answers ENC_CNT, low byte first, in every state, and changes nothing; with
a payload it is IllegalCommand. -/
def Obligations.RdencReadsTheCounter : Prop :=
  (∀ s : State, ∃ lo hi : Byte, s.encCnt = hi ++ lo ∧
    exec (.rdenc []) s = .next { s with rspOut := s.rspOut ++ [0x00, 0x02, 0x00, 0x00, 0x00, lo, hi] }) ∧
  ∀ (payload : List Byte) (s : State), payload ≠ [] →
    exec (.rdenc payload) s = .next { s with rspOut := s.rspOut ++ [0x81, 0, 0, 0, 0] }

/-- 43_counters.md R144: RDDEC answers DEC_CNT, low byte first, in every state, and changes nothing; with
a payload it is IllegalCommand. -/
def Obligations.RddecReadsTheCounter : Prop :=
  (∀ s : State, ∃ lo hi : Byte, s.decCnt = hi ++ lo ∧
    exec (.rddec []) s = .next { s with rspOut := s.rspOut ++ [0x00, 0x02, 0x00, 0x00, 0x00, lo, hi] }) ∧
  ∀ (payload : List Byte) (s : State), payload ≠ [] →
    exec (.rddec payload) s = .next { s with rspOut := s.rspOut ++ [0x81, 0, 0, 0, 0] }

/-- An ENC the length bound lets through. -/
def Sys2Proof.Machine.isCountedEnc : Instr → Bool
  | .enc p => decide (p.length ≤ engine.maxPt.val)
  | .newsz _ | .newkey _ | .dec _ | .dispose _ | .rdenc _ | .rddec _ => false

/-- A DEC, whatever becomes of it. -/
def Sys2Proof.Machine.isDec : Instr → Bool
  | .dec _ => true
  | .newsz _ | .newkey _ | .enc _ | .dispose _ | .rdenc _ | .rddec _ => false

/-- A command that neither constructs nor disposes of a context. -/
def Sys2Proof.Machine.keepsContext : Instr → Bool
  | .enc _ | .dec _ | .rdenc _ | .rddec _ => true
  | .newsz _ | .newkey _ | .dispose _ => false

/-- 43_counters.md R141, R142: over any run of ENC, DEC, RDENC and RDDEC in a live context, ENC_CNT
advances by the number of ENC commands that were not refused and DEC_CNT by the number of DEC commands,
successful or not, both modulo 65536; the run completes. -/
def Obligations.CountersCountCalls : Prop :=
  ∀ (is : List Instr) (s : State) (B : BlockSize), (∀ i ∈ is, keepsContext i = true) → s.live = true →
    s.bs.toNat = B.bytes →
    ∃ t, execAll is s = .next t ∧ t.encCnt.toNat = (s.encCnt.toNat + is.countP isCountedEnc) % 65536 ∧
      t.decCnt.toNat = (s.decCnt.toNat + is.countP isDec) % 65536

/-- 43_counters.md R146 with R141, R142: who writes the counters, command by command. A construction that
answers OK zeroes both, and one that does not leaves both; ENC moves ENC_CNT by one exactly when it passes
the length and context tests, DEC moves DEC_CNT by one exactly in a live context, and neither touches the
other's counter; DISPOSE and the counter reads leave both. -/
def Obligations.CounterWriters : Prop :=
  ∀ (i : Instr) (s t : State), exec i s = .next t →
    match i with
    | .newsz _ | .newkey _ =>
      (t.rspOut = s.rspOut ++ [0x00, 0, 0, 0, 0] → t.live = true ∧ t.encCnt = 0 ∧ t.decCnt = 0) ∧
      (t.rspOut ≠ s.rspOut ++ [0x00, 0, 0, 0, 0] → t.encCnt = s.encCnt ∧ t.decCnt = s.decCnt)
    | .enc p =>
      t.encCnt = (if s.live = true ∧ p.length ≤ engine.maxPt.val then s.encCnt + 1 else s.encCnt) ∧
      t.decCnt = s.decCnt
    | .dec _ =>
      t.encCnt = s.encCnt ∧ t.decCnt = (if s.live = true then s.decCnt + 1 else s.decCnt)
    | .dispose _ | .rdenc _ | .rddec _ => t.encCnt = s.encCnt ∧ t.decCnt = s.decCnt

/-! ### Whole-machine rules -/

/-- 10_state.md R22: the reset state, and what the seven commands find in it: ENC and DEC no context, the
counters 0, DISPOSE nothing to wipe (70_reset_and_hazards.md R232). -/
def Obligations.ResetState : Prop :=
  (State.reset.live = false ∧ State.reset.key.toList = List.replicate 32 0 ∧ State.reset.bs = 0 ∧
    State.reset.encCnt = 0 ∧ State.reset.decCnt = 0 ∧ State.reset.cmdIn = [] ∧ State.reset.rspOut = []) ∧
  exec (.enc []) State.reset = .next { State.reset with rspOut := [0x80, 0, 0, 0, 0] } ∧
  exec (.dec []) State.reset = .next { State.reset with rspOut := [0x80, 0, 0, 0, 0] } ∧
  exec (.dispose []) State.reset = .next { State.reset with rspOut := [0, 0, 0, 0, 0] } ∧
  exec (.rdenc []) State.reset = .next { State.reset with rspOut := [0, 2, 0, 0, 0, 0, 0] } ∧
  exec (.rddec []) State.reset = .next { State.reset with rspOut := [0, 2, 0, 0, 0, 0, 0] }

/-- 70_reset_and_hazards.md R230, R231: a reset that is due is a step of its own in every state, whatever
stands on the command stream (whole packets, a packet being received, a NEWSZ waiting for its draw,
nothing): every register has its reset value, both streams are emptied, no response goes out, and then the
stream holds what the host sends after the reset. With none due, a step serves the stream. How resets are
presented (a count of steps each, and the bytes sent after it) is the model's choice (log entry 9), and so
is that the entropy source keeps what it has answered (log entry 11). -/
def Obligations.ResetIsAStep : Prop :=
  (∀ (s : State) (sent : List Byte) (later : List ResetRequest),
    s.resetIn = { after := 0, sent := sent } :: later →
    step s = .next { live := false, key := Vector.replicate 32 0, bs := 0, encCnt := 0, decCnt := 0, cmdIn := sent, rspOut := [], entropyIn := s.entropyIn, resetIn := later }) ∧
  (∀ s : State, (∀ sent later, s.resetIn ≠ { after := 0, sent := sent } :: later) →
    step s = serve { s with resetIn := countdown 1 s.resetIn }) ∧
  ∀ s : State, s.resetIn = [] →
    step (hostReset 0 s) = .next { State.reset with entropyIn := s.entropyIn }

/-- 70_reset_and_hazards.md R231, R243: the host can reset between any two commands, both already on the
stream: with the reset presented after `is.length` steps, the commands `is` are executed, drawing the
entropy they need, and the next step is the reset, which leaves nothing of them and discards everything
unread behind them, whole packets or not. How resets and draws are presented is the model's choice (log
entries 4, 9 and 11). -/
def Obligations.ResetBetweenCommands : Prop :=
  ∀ (is : List Instr) (unread sent : List Byte) (later : List ResetRequest) (s : State), Inv s →
    (∀ i ∈ is, i.wellFormed = true) → (is.map entropyNeed).sum ≤ s.entropyIn.length →
    s.cmdIn = is.flatMap encode ++ unread → s.resetIn = { after := is.length, sent := sent } :: later →
    (∃ t, runSteps is.length s = .next t ∧ execAll is { s with cmdIn := unread, resetIn := t.resetIn } = .next t) ∧
    runSteps (is.length + 1) s = .next { State.reset with
      cmdIn := sent, entropyIn := s.entropyIn.drop (is.map entropyNeed).sum, resetIn := later }

/-- 10_state.md R21 holds at reset. -/
def Obligations.InvariantAtReset : Prop :=
  Inv State.reset ∧ ResponsesWhole State.reset

/-- 10_state.md R21: every step, from every state that meets the invariants, reached or not, keeps them:
a live context has a legal block size, `KEY[BS .. 32]` is zero, no key material without a context, and
while `BS` is 0 nothing has been counted. -/
def Obligations.StepKeepsInvariant : Prop :=
  ∀ s t : State, Inv s → step s = .next t → Inv t

/-- 30_encoding.md R66, 70_reset_and_hazards.md R242: from every state that meets the invariants a step
answers a next state: no payload, error or stream makes the engine fault, and no command is refused by
the model. That a step answers, with the state held, while a packet is cut (log entry 8) or a NEWSZ waits
for its draw (log entry 16; 93_implementation_defined.md U8 gives it no step) is the model's choice. -/
def Obligations.StepNeverStops : Prop :=
  ∀ s : State, Inv s → StepAnswers s

/-- 30_encoding.md R56, R57: every step keeps the response stream a sequence of whole legal response
packets: a `len` that says how many bytes follow and fits 32 bits, and none after an error. -/
def Obligations.ResponseStreamStaysWhole : Prop :=
  ∀ s t : State, ResponsesWhole s → step s = .next t → ResponsesWhole t

/-- 70_reset_and_hazards.md R242: a step that is no reset and takes a whole packet consumes at least its five header bytes
and sends a response of at least five: the engine finishes what the host presents. Only a NEWSZ waiting
for entropy is excepted. -/
def Obligations.PacketsAreAnswered : Prop :=
  ∀ (s t : State) (i : Instr) (rest : List Byte), decode s.cmdIn = .command i rest →
    entropyNeed i ≤ s.entropyIn.length → dueReset s.resetIn = none → step s = .next t →
    t.cmdIn = rest ∧ t.cmdIn.length + 5 ≤ s.cmdIn.length ∧ s.rspOut.length + 5 ≤ t.rspOut.length ∧
      s.rspOut <+: t.rspOut

/-- 10_state.md R11, R13, 70_reset_and_hazards.md R243: no command but ENC and DEC answers anything that
depends on KEY, BS or LIVE: two states that agree on the counters and the entropy give the same answer.
(For a NEWSZ whose draw is unanswered that answer is nothing, and the state held: log entry 16.) -/
def Obligations.KeyIsNotAnswered : Prop :=
  ∀ (i : Instr) (s s' : State), (∀ p, i ≠ .enc p) → (∀ c, i ≠ .dec c) → s.encCnt = s'.encCnt →
    s.decCnt = s'.decCnt → s.entropyIn = s'.entropyIn →
    ∃ t t' r, exec i s = .next t ∧ exec i s' = .next t' ∧ t.rspOut = s.rspOut ++ r ∧
      t'.rspOut = s'.rspOut ++ r

/-! ### The primitives -/

/-- 45_block_cipher.md R166: XORTEST's `E` and `D` are the bytewise exclusive or with the key, and satisfy
the inverse law R161 for every block size. -/
def Obligations.XorTestCipher : Prop :=
  xorTestConfig.CipherInverse ∧
    ∀ (B : BlockSize) (k b : Block B) (j : Nat) (h : j < B.bytes),
      (xorTestConfig.E B k b)[j] = b[j] ^^^ k[j] ∧ (xorTestConfig.D B k b)[j] = b[j] ^^^ k[j]

/-- 45_block_cipher.md R176: Rijndael with block size = key size, the spec's general-knowledge instantiation
(log entry 18), satisfies the inverse law, for all three sizes, every key and every block. -/
def Obligations.RijndaelInverse : Prop :=
  rijndaelConfig.CipherInverse

/-- 45_block_cipher.md R169: `fieldInverse` is the multiplicative inverse (0 for 0); the S-box table is
its affine image, bit by bit, and the inverse S-box table is the inverse permutation. -/
def Obligations.SboxIsAffineOfInverse : Prop :=
  fieldInverse 0 = 0 ∧ (∀ a : Byte, a ≠ 0 → gmul a (fieldInverse a) = 1) ∧
  ∀ a : Byte, invSbox (sbox a) = a ∧ sbox (invSbox a) = a ∧
    ∀ i, i < 8 → (sbox a).getLsbD i =
      ((fieldInverse a).getLsbD i ^^ (fieldInverse a).getLsbD ((i + 4) % 8) ^^
        (fieldInverse a).getLsbD ((i + 5) % 8) ^^ (fieldInverse a).getLsbD ((i + 6) % 8) ^^
        (fieldInverse a).getLsbD ((i + 7) % 8) ^^ (0x63 : Byte).getLsbD i)

/-- 44_checksum.md R155: CRC-32 is linear over GF(2) (affine: three inputs, so that the fixed initial and
final values cancel): the checksum of a bytewise exclusive or of three equally long inputs is the
exclusive or of their checksums, and the checksum of nothing is 0. -/
def Obligations.CrcIsLinear : Prop :=
  crc32 [] = 0 ∧
  ∀ a b c : List Byte, a.length = b.length → b.length = c.length →
    crc32 (xorBytes (xorBytes a b) c) = crc32 a ^^^ crc32 b ^^^ crc32 c

/-- 45_block_cipher.md R177, R178; 44_checksum.md R153: check values of the two instantiations. -/
def Obligations.CheckValues : Prop :=
  crc32 [0x31, 0x32, 0x33, 0x34, 0x35, 0x36, 0x37, 0x38, 0x39] = 0xCBF43926#32 ∧
  crc32 (List.replicate 11 0x00) = 0x6B87B1EC#32 ∧
  rijndaelEncBytes .b16 (List.replicate 16 0x00) (List.replicate 16 0x00) =
    [0x66, 0xe9, 0x4b, 0xd4, 0xef, 0x8a, 0x2c, 0x3b, 0x88, 0x4c, 0xfa, 0x59, 0xca, 0x34, 0x2b, 0x2e]
end

