-- ==== Sys2Proof/Laws/Assembly.lean ====
section
/-! SUPPORT. The textual form of operands: hexadecimal text reads back as its bytes, and holds no blank, comment or
quote character (spec/30_encoding.md R64). -/

namespace Sys2Proof.Machine

/-- A character that is part of a word: no blank, no comment sign. -/
def isWordChar (c : Char) : Bool :=
  decide (c ≠ ' ' ∧ c ≠ '\t' ∧ c ≠ ';')

theorem hexDigit_hexChar (n : Nat) (h : n < 16) : hexDigit (hexChar n) = some n := by
  have : ∀ n : Fin 16, hexDigit (hexChar n) = some n.val := by decide
  exact this ⟨n, h⟩

theorem hexChar_word (n : Nat) (h : n < 16) : isWordChar (hexChar n) = true ∧ hexChar n ≠ '"' := by
  have : ∀ n : Fin 16, isWordChar (hexChar n) = true ∧ hexChar n ≠ '"' := by decide
  exact this ⟨n, h⟩

/-- Hexadecimal text reads back as the bytes it stands for. -/
theorem hexBytes_hexText (bs : List Byte) : hexBytes (hexText bs) = some bs := by
  induction bs with
  | nil => rfl
  | cons b bs ih =>
    have hb := b.isLt
    have hsum : BitVec.ofNat 8 (16 * (b.toNat / 16) + b.toNat % 16) = b := by
      apply BitVec.eq_of_toNat_eq
      rw [BitVec.toNat_ofNat]
      omega
    rw [hexText, hexBytes, hexDigit_hexChar _ (by omega), hexDigit_hexChar _ (by omega), ih]
    simp [hsum]

theorem hexText_word (bs : List Byte) : ∀ c ∈ hexText bs, isWordChar c = true ∧ c ≠ '"' := by
  induction bs with
  | nil => simp [hexText]
  | cons b bs ih =>
    have hb := b.isLt
    intro c hc
    simp only [hexText, List.mem_cons] at hc
    rcases hc with rfl | rfl | hc
    · exact hexChar_word _ (by omega)
    · exact hexChar_word _ (by omega)
    · exact ih c hc

theorem hexText_ne_nil {bs : List Byte} (h : bs ≠ []) : hexText bs ≠ [] := by
  cases bs with
  | nil => exact absurd rfl h
  | cons b bs => simp [hexText]

/-- Decimal digits, most significant first, read back as their number. -/
theorem decimalFrom_digits (ds : List Nat) (h : ∀ d ∈ ds, d < 10) (acc : Nat) :
    decimalFrom acc (ds.map hexChar) = some (ds.foldl (fun n d => 10 * n + d) acc) := by
  have hd : ∀ d : Fin 10, decimalDigit (hexChar d) = some d.val := by decide
  induction ds generalizing acc with
  | nil => rfl
  | cons d ds ih =>
    rw [List.map_cons, decimalFrom, hd ⟨d, h d (by simp)⟩]
    exact ih (fun e he => h e (by simp [he])) _

/-- Text without a comment sign before a `;` is what is left of the line. -/
theorem stripComment_append (w rest : List Char) (h : ∀ c ∈ w, c ≠ ';') :
    stripComment (w ++ rest) = w ++ stripComment rest := by
  induction w with
  | nil => rfl
  | cons c w ih =>
    rw [List.cons_append, stripComment, if_neg (h c (by simp)), ih (fun d hd => h d (by simp [hd]))]
    rfl

/-- A word at the head of the line is read to its end. -/
theorem wordsFrom_word (w : List Char) (h : ∀ c ∈ w, isWordChar c = true) (acc rest : List Char) :
    wordsFrom acc (w ++ rest) = wordsFrom (w.reverse ++ acc) rest := by
  induction w generalizing acc with
  | nil => rfl
  | cons c w ih =>
    have hc := h c (by simp)
    simp only [isWordChar, decide_eq_true_eq] at hc
    rw [List.cons_append, wordsFrom, if_neg (by tauto), ih (fun d hd => h d (by simp [hd]))]
    simp

end Sys2Proof.Machine
end

