-- ==== Sys2Proof/Laws/Bytes.lean ====
section
/-! SUPPORT. Little-endian encoding and its inverse (spec/00_scope.md R5). -/

namespace Sys2Proof

@[simp] theorem leBytes_length (n v : Nat) : (leBytes n v).length = n := by
  induction n generalizing v with
  | zero => rfl
  | succ n ih => simp [leBytes, ih]

theorem fromLe_lt (l : List Byte) : fromLe l < 256 ^ l.length := by
  induction l with
  | nil => simp [fromLe]
  | cons b bs ih =>
    have hb := b.isLt
    simp only [fromLe, List.length_cons, Nat.pow_succ]
    omega

theorem fromLe_leBytes (n v : Nat) (h : v < 256 ^ n) : fromLe (leBytes n v) = v := by
  induction n generalizing v with
  | zero => simp only [Nat.pow_zero] at h; simp only [leBytes, fromLe]; omega
  | succ n ih =>
    have hq : v / 256 < 256 ^ n := by rw [Nat.pow_succ] at h; omega
    simp only [leBytes, fromLe, ih _ hq, BitVec.toNat_ofNat]
    omega

theorem leBytes_fromLe (l : List Byte) : leBytes l.length (fromLe l) = l := by
  induction l with
  | nil => rfl
  | cons b bs ih =>
    have hb := b.isLt
    simp only [List.length_cons, leBytes, fromLe]
    rw [show (b.toNat + 256 * fromLe bs) / 256 = fromLe bs by omega, ih]
    congr 1
    apply BitVec.eq_of_toNat_eq
    simp only [BitVec.toNat_ofNat]
    omega

theorem leBytes_one (v : Nat) : leBytes 1 v = [BitVec.ofNat 8 v] := rfl

/-- Four bytes are determined by the number they encode. -/
theorem leBytes_four_fromLe (a b c d : Byte) : leBytes 4 (fromLe [a, b, c, d]) = [a, b, c, d] :=
  leBytes_fromLe [a, b, c, d]

theorem leBytes_four (v : Nat) :
    leBytes 4 v = [BitVec.ofNat 8 v, BitVec.ofNat 8 (v / 256), BitVec.ofNat 8 (v / 256 / 256),
      BitVec.ofNat 8 (v / 256 / 256 / 256)] := rfl

/-- A byte below a wider number: the number whose low byte it is. -/
theorem toNat_append_byte {w : Nat} (hi : BitVec w) (lo : Byte) :
    (hi ++ lo).toNat = 256 * hi.toNat + lo.toNat := by
  rw [BitVec.toNat_append, ← Nat.shiftLeft_add_eq_or_of_lt lo.isLt, Nat.shiftLeft_eq]
  omega

end Sys2Proof
end

