-- ==== Sys2Proof/Laws/Decode.lean ====
section
/-! SUPPORT. What the decoder answers on a packet, on a cut packet, and what it read when it answers a command
(spec/30_encoding.md R53, R59, R60, R63). -/

namespace Sys2Proof

/-- The head of the stream as the decoder reads it. -/
theorem decode_five (op l0 l1 l2 l3 : Byte) (tail : List Byte) :
    decode (op :: l0 :: l1 :: l2 :: l3 :: tail) =
      if tail.length < fromLe [l0, l1, l2, l3] then .truncated
      else
        match commandOf op (tail.take (fromLe [l0, l1, l2, l3])) with
        | some i => .command i (tail.drop (fromLe [l0, l1, l2, l3]))
        | none => .illegal op (tail.drop (fromLe [l0, l1, l2, l3])) := rfl

/-- A packet, whole or cut, is the opcode, four length bytes and what has arrived of the payload. -/
theorem commandPacket_eq (op : Byte) (payload : List Byte) :
    ∃ l0 l1 l2 l3, leBytes 4 payload.length = [l0, l1, l2, l3] ∧
      commandPacket op payload = op :: l0 :: l1 :: l2 :: l3 :: payload := by
  exact ⟨_, _, _, _, leBytes_four _, by simp [commandPacket, leBytes_four]⟩

/-- A whole packet at the head of the stream is read as its command, or as its illegal opcode, and
exactly its bytes are taken. -/
theorem decode_commandPacket (op : Byte) (payload rest : List Byte) (h : payload.length < 2 ^ 32) :
    decode (commandPacket op payload ++ rest) =
      match commandOf op payload with
      | some i => .command i rest
      | none => .illegal op rest := by
  obtain ⟨l0, l1, l2, l3, hl, hp⟩ := commandPacket_eq op payload
  have hlen : fromLe [l0, l1, l2, l3] = payload.length := by
    rw [← hl]; exact fromLe_leBytes 4 _ (by norm_num at h ⊢; exact h)
  rw [hp, List.cons_append, List.cons_append, List.cons_append, List.cons_append, List.cons_append,
    decode_five, hlen, if_neg (by simp), List.take_left, List.drop_left]

/-- Fewer bytes than the packet has are no packet yet. -/
theorem decode_take_commandPacket (op : Byte) (payload : List Byte) (k : Nat)
    (h : payload.length < 2 ^ 32) (hk : k < (commandPacket op payload).length) :
    decode ((commandPacket op payload).take k) = .truncated := by
  obtain ⟨l0, l1, l2, l3, hl, hp⟩ := commandPacket_eq op payload
  have hlen : fromLe [l0, l1, l2, l3] = payload.length := by
    rw [← hl]; exact fromLe_leBytes 4 _ (by norm_num at h ⊢; exact h)
  rw [hp] at hk ⊢
  match k with
  | 0 | 1 | 2 | 3 | 4 => rfl
  | k + 5 =>
    simp only [List.length_cons] at hk
    simp only [List.take_succ_cons]
    rw [decode_five, hlen, if_pos (by simp; omega)]

/-- The opcode map gives a command exactly its own opcode and payload. -/
theorem commandOf_eq_some {op : Byte} {payload : List Byte} {i : Instr}
    (h : commandOf op payload = some i) : op = opcodeOf i ∧ payload = i.payload := by
  unfold commandOf at h
  split at h <;> simp only [Option.some.injEq, reduceCtorEq] at h <;> subst h <;>
    exact ⟨BitVec.eq_of_toNat_eq (by assumption), rfl⟩

/-- The illegal opcodes are 0x00 and 0x08 to 0xFF (30_encoding.md R60). -/
theorem commandOf_eq_none (op : Byte) (payload : List Byte) :
    commandOf op payload = none ↔ op.toNat = 0 ∨ 8 ≤ op.toNat := by
  unfold commandOf
  split <;> simp_all
  omega

/-- When the decoder answers a command, the stream held that command's packet and then `rest`. -/
theorem decode_eq_command {bytes rest : List Byte} {i : Instr} (h : decode bytes = .command i rest) :
    i.payload.length < 2 ^ 32 ∧ bytes = encode i ++ rest := by
  unfold decode at h
  split at h
  · rename_i op l0 l1 l2 l3 tail
    simp only at h
    split at h
    · cases h
    · rename_i hlen
      split at h
      · rename_i j hc
        obtain ⟨rfl, rfl⟩ : j = i ∧ _ = rest := by simpa using h
        obtain ⟨hop, hpay⟩ := commandOf_eq_some hc
        have hn : j.payload.length = fromLe [l0, l1, l2, l3] := by
          rw [← hpay, List.length_take]; omega
        refine ⟨?_, ?_⟩
        · have := fromLe_lt [l0, l1, l2, l3]
          rw [hn]; simpa using this
        · unfold encode commandPacket
          rw [hn, leBytes_four_fromLe, ← hpay, hop]
          simp
      · cases h
  · cases h

end Sys2Proof
end

