-- ==== Sys2Proof/Laws/Ecb.lean ====
section
/-! SUPPORT. The ECB datapaths: lengths, the block at a position, and the inverse law lifted from one block to a buffer
(spec/41_encrypt.md R105; spec/42_decrypt.md R122; spec/45_block_cipher.md R161). -/

namespace Sys2Proof.Machine

theorem block_length (B : BlockSize) (b : Block B) : b.toList.length = B.bytes := by simp

/-- A block read from the front of a list that starts with it. -/
theorem blockOfList_toList (B : BlockSize) (b : Block B) (rest : List Byte) :
    blockOfList B (b.toList ++ rest) = b := by
  apply Vector.ext
  intro i hi
  have hl := block_length B b
  simp only [blockOfList, Vector.getElem_ofFn]
  rw [List.getD_eq_getElem?_getD, List.getElem?_append_left (by omega)]
  simp [Vector.getElem?_eq_getElem hi]

/-- The bytes of a block read from the front of a long enough list. -/
theorem toList_blockOfList (B : BlockSize) (l : List Byte) (h : B.bytes ≤ l.length) :
    (blockOfList B l).toList = l.take B.bytes := by
  apply List.ext_getElem
  · simp; omega
  · intro i h1 h2
    simp only [block_length] at h1
    simp [blockOfList, List.getD_eq_getElem?_getD, List.getElem?_eq_getElem (by omega : i < l.length)]

/-- A list of exactly a block's length is a block's bytes. -/
theorem toList_blockOfList_eq (B : BlockSize) (l : List Byte) (h : l.length = B.bytes) :
    (blockOfList B l).toList = l := by
  rw [toList_blockOfList B l (by omega), List.take_of_length_le (by omega)]

theorem blockOfList_self (B : BlockSize) (b : Block B) : blockOfList B b.toList = b := by
  simpa using blockOfList_toList B b []

theorem ecb_length (B : BlockSize) (f : Block B → Block B) (n : Nat) (fb : List Byte) :
    (ecb B f n fb).length = n * B.bytes := by
  induction n generalizing fb with
  | zero => simp [ecb]
  | succ n ih => simp only [ecb, List.length_append, block_length, ih, Nat.succ_mul]; omega

/-- The block at position `i` of the output is the cipher of the block at position `i` of the input. -/
theorem ecb_block (B : BlockSize) (f : Block B → Block B) (n : Nat) (fb : List Byte) (i : Nat)
    (hi : i < n) :
    blockOfList B ((ecb B f n fb).drop (i * B.bytes)) = f (blockOfList B (fb.drop (i * B.bytes))) := by
  induction n generalizing fb i with
  | zero => omega
  | succ n ih =>
    cases i with
    | zero => simp only [ecb, Nat.zero_mul, List.drop_zero, blockOfList_toList]
    | succ i =>
      have hd : ∀ r : List Byte, ((f (blockOfList B fb)).toList ++ r).drop ((i + 1) * B.bytes)
          = r.drop (i * B.bytes) := by
        intro r
        rw [Nat.succ_mul, Nat.add_comm, ← List.drop_drop, List.drop_left' (block_length B _)]
      rw [ecb, hd, ih _ _ (by omega), List.drop_drop]
      congr 3
      rw [Nat.succ_mul]; omega

/-- Applying a block function and then its inverse gives back the whole blocks. -/
theorem ecb_ecb (B : BlockSize) (f g : Block B → Block B) (h : ∀ x, g (f x) = x) (n : Nat)
    (fb : List Byte) (hn : fb.length = n * B.bytes) : ecb B g n (ecb B f n fb) = fb := by
  induction n generalizing fb with
  | zero => simp at hn; simp [ecb, hn]
  | succ n ih =>
    rw [Nat.succ_mul] at hn
    simp only [ecb, blockOfList_toList, h]
    rw [List.drop_left' (block_length B _), ih _ (by rw [List.length_drop]; omega), toList_blockOfList B fb (by omega),
      List.take_append_drop]

theorem mul_of_mod (B : BlockSize) (n : Nat) (h : n % B.bytes = 0) : n = n / B.bytes * B.bytes :=
  (Nat.div_mul_cancel (Nat.dvd_of_mod_eq_zero h)).symm

@[simp] theorem ecbEnc_length (cfg : Config) (B : BlockSize) (k : Block B) (fb : List Byte)
    (h : fb.length % B.bytes = 0) : (ecbEnc cfg B k fb).length = fb.length := by
  rw [ecbEnc, ecb_length, ← mul_of_mod B _ h]

@[simp] theorem ecbDec_length (cfg : Config) (B : BlockSize) (k : Block B) (fb : List Byte)
    (h : fb.length % B.bytes = 0) : (ecbDec cfg B k fb).length = fb.length := by
  rw [ecbDec, ecb_length, ← mul_of_mod B _ h]

/-- Decryption undoes encryption on whole blocks, for any cipher with the inverse law. -/
theorem ecbDec_ecbEnc (cfg : Config) (hc : cfg.CipherInverse) (B : BlockSize) (k : Block B)
    (fb : List Byte) (h : fb.length % B.bytes = 0) : ecbDec cfg B k (ecbEnc cfg B k fb) = fb := by
  rw [ecbDec, ecbEnc_length cfg B k fb h, ecbEnc]
  exact ecb_ecb B _ _ (fun x => (hc B k x).1) _ fb (mul_of_mod B _ h)

/-- Encryption undoes decryption on whole blocks, for any cipher with the inverse law. -/
theorem ecbEnc_ecbDec (cfg : Config) (hc : cfg.CipherInverse) (B : BlockSize) (k : Block B)
    (fb : List Byte) (h : fb.length % B.bytes = 0) : ecbEnc cfg B k (ecbDec cfg B k fb) = fb := by
  rw [ecbEnc, ecbDec_length cfg B k fb h, ecbDec]
  exact ecb_ecb B _ _ (fun x => (hc B k x).2) _ fb (mul_of_mod B _ h)

/-- The engine's open cipher has the inverse law, by the type of the constant (log entry 1). -/
theorem engine_inverse : engine.CipherInverse := fun _ _ x =>
  ⟨Equiv.symm_apply_apply _ x, Equiv.apply_symm_apply _ x⟩

end Sys2Proof.Machine
end

