-- ==== Sys2Proof/Laws/Frame.lean ====
section
/-! SUPPORT. The frame buffer: read after write, the padding length, what `Pack` leaves and what `Unpack` finds
(spec/20_memory.md R33, R34; spec/41_encrypt.md R101 to R103, R107; spec/42_decrypt.md R123). -/

namespace Sys2Proof.Machine

@[simp] theorem freshBuffer_length (n : Nat) : (freshBuffer n).length = n := by
  simp [freshBuffer]

/-- A write inside the buffer succeeds, and says what the buffer then holds. -/
theorem memWriteBytes_eq {a : Nat} {s fb : List Byte} (h : a + s.length ≤ fb.length) :
    memWriteBytes a s fb = some (fb.take a ++ s ++ fb.drop (a + s.length)) := if_pos h

/-- A read inside the buffer succeeds. -/
theorem memReadBytes_eq {a n : Nat} {fb : List Byte} (h : a + n ≤ fb.length) :
    memReadBytes a n fb = some ((fb.drop a).take n) := if_pos h

theorem memWriteBytes_length {a : Nat} {s fb fb' : List Byte} (h : memWriteBytes a s fb = some fb') :
    fb'.length = fb.length := by
  unfold memWriteBytes at h
  split at h
  · cases h; simp; omega
  · cases h

/-- A write with the bytes around it named: what is before and after stays. -/
theorem memWriteBytes_append (pre old post s : List Byte) (h : old.length = s.length) :
    memWriteBytes pre.length s (pre ++ old ++ post) = some (pre ++ s ++ post) := by
  rw [memWriteBytes_eq (by simp; omega)]
  have h1 : (pre ++ old ++ post).take pre.length = pre := by
    rw [List.append_assoc, List.take_left]
  have h2 : (pre ++ old ++ post).drop (pre.length + s.length) = post := by
    rw [← h, ← List.length_append, List.drop_left]
  rw [h1, h2]

/-- A list cut in two at a length it has. -/
theorem split_at (n : Nat) (l : List Byte) (h : n ≤ l.length) :
    ∃ x y, l = x ++ y ∧ x.length = n :=
  ⟨l.take n, l.drop n, (List.take_append_drop n l).symm, by simp; omega⟩

@[simp] theorem frameBytes_length (P : Nat) (chk : BitVec 32) (p filler : List Byte) :
    (frameBytes P chk p filler).length = 5 + p.length + filler.length := by
  simp [frameBytes]; omega

/-- `Pack` fills the whole of a buffer of the right size, whatever it held (41_encrypt.md R103). -/
theorem pack_eq (P : Nat) (chk : BitVec 32) (p fb : List Byte) (h : fb.length = 5 + p.length + P) :
    pack P chk p fb = some (frameBytes P chk p (List.replicate P padByte)) := by
  obtain ⟨x0, r1, rfl, h0⟩ := split_at 1 fb (by omega)
  rw [List.length_append] at h
  obtain ⟨x1, r2, rfl, h1⟩ := split_at 4 r1 (by omega)
  rw [List.length_append] at h
  obtain ⟨x2, x3, rfl, h2⟩ := split_at p.length r2 (by omega)
  rw [List.length_append] at h
  have w0 : memWriteBytes 0 (leBytes 1 P) (x0 ++ (x1 ++ (x2 ++ x3)))
      = some (leBytes 1 P ++ (x1 ++ (x2 ++ x3))) := by
    simpa using memWriteBytes_append [] x0 (x1 ++ (x2 ++ x3)) (leBytes 1 P) (by simpa using h0)
  have w1 : memWriteBytes 1 (leBytes 4 chk.toNat) (leBytes 1 P ++ (x1 ++ (x2 ++ x3)))
      = some (leBytes 1 P ++ leBytes 4 chk.toNat ++ (x2 ++ x3)) := by
    simpa using memWriteBytes_append (leBytes 1 P) x1 (x2 ++ x3) (leBytes 4 chk.toNat) (by simpa using h1)
  have w2 : memWriteBytes 5 p (leBytes 1 P ++ leBytes 4 chk.toNat ++ (x2 ++ x3))
      = some (leBytes 1 P ++ leBytes 4 chk.toNat ++ p ++ x3) := by
    simpa using memWriteBytes_append (leBytes 1 P ++ leBytes 4 chk.toNat) x2 x3 p h2
  have w3 : memWriteBytes (5 + p.length) (List.replicate P padByte)
        (leBytes 1 P ++ leBytes 4 chk.toNat ++ p ++ x3)
      = some (leBytes 1 P ++ leBytes 4 chk.toNat ++ p ++ List.replicate P padByte) := by
    have hx : x3.length = (List.replicate P padByte).length := by simp; omega
    have := memWriteBytes_append (leBytes 1 P ++ leBytes 4 chk.toNat ++ p) x3 []
      (List.replicate P padByte) hx
    have hl : (leBytes 1 P ++ leBytes 4 chk.toNat ++ p).length = 5 + p.length := by simp; omega
    rw [hl] at this
    simpa using this
  simp only [pack, memWrite, memFill, headerLen, w0, w1, w2, w3, Option.bind_eq_bind,
    Option.bind_some, frameBytes]

/-- The header fields of a buffer of at least five bytes (42_decrypt.md R123). -/
theorem unpack_eq (fb : List Byte) (h : 5 ≤ fb.length) :
    unpack fb = some (fromLe (fb.take 1), fromLe ((fb.drop 1).take 4)) := by
  simp [unpack, memRead, memReadBytes_eq (a := 0) (n := 1) (fb := fb) (by omega),
    memReadBytes_eq (a := 1) (n := 4) (fb := fb) (by omega)]

theorem fromLe_singleton (b : Byte) : fromLe [b] = b.toNat := by simp [fromLe]

/-- `Unpack` finds what a frame was packed with, as long as the padding length fits its byte. -/
theorem unpack_frameBytes (P : Nat) (chk : BitVec 32) (p filler : List Byte) (hP : P < 256) :
    unpack (frameBytes P chk p filler) = some (P, chk.toNat) := by
  have h1 : (frameBytes P chk p filler).take 1 = leBytes 1 P := by
    simp [frameBytes, leBytes_one]
  have h4 : ((frameBytes P chk p filler).drop 1).take 4 = leBytes 4 chk.toNat := by
    simp [frameBytes, leBytes_one]
  rw [unpack_eq _ (by simp; omega), h1, h4, fromLe_leBytes 1 P (by simpa using hP),
    fromLe_leBytes 4 _ (by have := chk.isLt; norm_num at this ⊢; exact this)]

/-- The plaintext slice of a frame with as many filler bytes as its padding length says. -/
theorem slice_frameBytes (P : Nat) (chk : BitVec 32) (p filler : List Byte) :
    ((frameBytes P chk p filler).drop 5).take p.length = p := by
  have : frameBytes P chk p filler = (leBytes 1 P ++ leBytes 4 chk.toNat) ++ (p ++ filler) := by
    simp [frameBytes]
  rw [this, show (5 : Nat) = (leBytes 1 P ++ leBytes 4 chk.toNat).length by simp, List.drop_left,
    List.take_left]

theorem bytes_pos (B : BlockSize) : 16 ≤ B.bytes ∧ B.bytes ≤ 32 := by
  cases B <;> decide

theorem padLen_lt (L : Nat) (B : BlockSize) : padLen L B.bytes < B.bytes :=
  Nat.mod_lt _ (by have := bytes_pos B; omega)

/-- A frame is a whole number of blocks (41_encrypt.md R102, R107). -/
theorem frameLen_mod (L : Nat) (B : BlockSize) : frameLen L B.bytes % B.bytes = 0 := by
  cases B <;> simp only [frameLen, padLen, headerLen, BlockSize.bytes] <;> omega

end Sys2Proof.Machine
end

