-- ==== Sys2Proof/Laws/Encrypt.lean ====
section
/-! SUPPORT. Everything ENC can do, in three lemmas (spec/41_encrypt.md R100), and its response's length (R102). -/

namespace Sys2Proof.Machine

/-- The `BS` register names a block size exactly when it holds that size in bytes (10_state.md R12). -/
theorem contextSize_eq_some {s : State} {B : BlockSize} :
    contextSize s = some B ↔ s.bs.toNat = B.bytes := by
  unfold contextSize blockSizeOfLen
  constructor
  · intro h
    split at h
    · cases h; assumption
    · split at h
      · cases h; assumption
      · split at h
        · cases h; assumption
        · cases h
  · intro h
    rw [h]
    cases B <;> decide

/-- The response payload of a successful ENC (41_encrypt.md R100, R103, R105). -/
def ciphertext (cfg : Config) (B : BlockSize) (k : Block B) (p : List Byte) : List Byte :=
  ecbEnc cfg B k
    (frameBytes (padLen p.length B.bytes) (cfg.hash32 p) p
      (List.replicate (padLen p.length B.bytes) padByte))

theorem encWith_tooLong {cfg : Config} {p : List Byte} (s : State) (h : cfg.maxPt.val < p.length) :
    encWith cfg p s = .next (raise .illegalCommand s) := if_pos h

theorem encWith_dead {cfg : Config} {p : List Byte} {s : State} (h : p.length ≤ cfg.maxPt.val)
    (hl : s.live = false) : encWith cfg p s = .next (raise .noContext s) := by
  rw [encWith, if_neg (by omega), if_pos hl]

/-- ENC in a live context: counted, and answered with the ciphertext of the packed frame. -/
theorem encWith_live {cfg : Config} {p : List Byte} {s : State} {B : BlockSize}
    (h : p.length ≤ cfg.maxPt.val) (hl : s.live = true) (hB : contextSize s = some B) :
    encWith cfg p s = .next (respond .ok (ciphertext cfg B (contextKey B s) p) (countEnc s)) := by
  rw [encWith, if_neg (by omega), if_neg (by simp [hl]), hB]
  simp only
  rw [pack_eq _ _ _ _ (by simp [frameLen, headerLen])]
  rfl

theorem encWith_badSize {cfg : Config} {p : List Byte} {s : State} (h : p.length ≤ cfg.maxPt.val)
    (hl : s.live = true) (hB : contextSize s = none) : encWith cfg p s = .fault .badBlockSize := by
  rw [encWith, if_neg (by omega), if_neg (by simp [hl]), hB]

theorem packed_mod (cfg : Config) (B : BlockSize) (p : List Byte) :
    (frameBytes (padLen p.length B.bytes) (cfg.hash32 p) p
      (List.replicate (padLen p.length B.bytes) padByte)).length % B.bytes = 0 := by
  have := frameLen_mod p.length B
  simpa [frameLen, headerLen] using this

theorem ciphertext_length (cfg : Config) (B : BlockSize) (k : Block B) (p : List Byte) :
    (ciphertext cfg B k p).length = frameLen p.length B.bytes := by
  rw [ciphertext, ecbEnc_length _ _ _ _ (packed_mod cfg B p)]
  simp [frameLen, headerLen]

end Sys2Proof.Machine
end

