-- ==== Sys2Proof/Laws/Decrypt.lean ====
section
/-! SUPPORT. Everything DEC can do (spec/42_decrypt.md R120 to R126). -/

namespace Sys2Proof.Machine

/-- What a recovered frame is judged to be, with the tests written as conditions on its bytes
(42_decrypt.md R123 to R126). -/
def verdict (cfg : Config) (fb : List Byte) : Status × List Byte :=
  let P := fromLe (fb.take 1)
  let slice := (fb.drop 5).take (fb.length - P - 5)
  if fb.length < 5 + P then (.malformedFrame, [])
  else if (cfg.hash32 slice).toNat ≠ fromLe ((fb.drop 1).take 4) then (.integrityCheckFailed, [])
  else (.ok, slice)

/-- A recovered frame has at least a header, so its judging never leaves the buffer. -/
theorem judgeFrame_eq (cfg : Config) (fb : List Byte) (h : 5 ≤ fb.length) :
    judgeFrame cfg fb = some (verdict cfg fb) := by
  unfold judgeFrame verdict
  simp only [unpack_eq fb h, Option.bind_eq_bind, Option.bind_some, headerLen, Option.pure_def]
  split
  · rfl
  · rw [memReadBytes_eq (by omega), Option.bind_some]
    split <;> rfl

theorem decWith_dead {cfg : Config} {c : List Byte} {s : State} (hl : s.live = false) :
    decWith cfg c s = .next (raise .noContext s) := if_pos hl

theorem decWith_badSize {cfg : Config} {c : List Byte} {s : State} (hl : s.live = true)
    (hB : contextSize s = none) : decWith cfg c s = .fault .badBlockSize := by
  rw [decWith, if_neg (by simp [hl]), hB]

theorem decWith_badLength {cfg : Config} {c : List Byte} {s : State} {B : BlockSize}
    (hl : s.live = true) (hB : contextSize s = some B) (h : c.length = 0 ∨ c.length % B.bytes ≠ 0) :
    decWith cfg c s = .next (raise .invalidCiphertextLength (countDec s)) := by
  rw [decWith, if_neg (by simp [hl]), hB]
  exact if_pos h

theorem whole_blocks {B : BlockSize} {c : List Byte} (h : ¬(c.length = 0 ∨ c.length % B.bytes ≠ 0)) :
    c.length % B.bytes = 0 ∧ 16 ≤ c.length := by
  have hb := bytes_pos B
  refine ⟨by omega, ?_⟩
  have h0 : c.length % B.bytes = 0 := by omega
  have := Nat.le_of_dvd (by omega) (Nat.dvd_of_mod_eq_zero h0)
  omega

/-- DEC of whole blocks in a live context: counted, and answered with the verdict on the frame. -/
theorem decWith_live {cfg : Config} {c : List Byte} {s : State} {B : BlockSize} (hl : s.live = true)
    (hB : contextSize s = some B) (h : ¬(c.length = 0 ∨ c.length % B.bytes ≠ 0)) :
    decWith cfg c s =
      .next (respond (verdict cfg (ecbDec cfg B (contextKey B s) c)).1
        (verdict cfg (ecbDec cfg B (contextKey B s) c)).2 (countDec s)) := by
  obtain ⟨hm, hc⟩ := whole_blocks h
  rw [decWith, if_neg (by simp [hl]), hB]
  simp only [if_neg h]
  rw [judgeFrame_eq _ _ (by rw [ecbDec_length _ _ _ _ hm]; omega)]

/-- An error verdict carries no payload, and no verdict carries more bytes than the frame. -/
theorem verdict_payload (cfg : Config) (fb : List Byte) :
    ((verdict cfg fb).1 ≠ .ok → (verdict cfg fb).2 = []) ∧ (verdict cfg fb).2.length ≤ fb.length ∧
      ((verdict cfg fb).1 = .ok ∨ (verdict cfg fb).1 = .malformedFrame ∨
        (verdict cfg fb).1 = .integrityCheckFailed) := by
  unfold verdict
  simp only
  split
  · simp
  · split
    · simp
    · simp only [ne_eq, not_true_eq_false, false_implies, List.length_take, List.length_drop, true_and,
        true_or, and_true]
      omega

/-- A frame whose padding length counts its filler and whose checksum matches is accepted, whatever the
filler bytes are (42_decrypt.md R126). -/
theorem verdict_frameBytes (cfg : Config) (p filler : List Byte) (h : filler.length < 256) :
    verdict cfg (frameBytes filler.length (cfg.hash32 p) p filler) = (.ok, p) := by
  have h1 : fromLe ((frameBytes filler.length (cfg.hash32 p) p filler).take 1) = filler.length := by
    have : (frameBytes filler.length (cfg.hash32 p) p filler).take 1 = leBytes 1 filler.length := by
      simp [frameBytes, leBytes_one]
    rw [this, fromLe_leBytes 1 _ (by simpa using h)]
  have h4 : fromLe (((frameBytes filler.length (cfg.hash32 p) p filler).drop 1).take 4)
      = (cfg.hash32 p).toNat := by
    have : ((frameBytes filler.length (cfg.hash32 p) p filler).drop 1).take 4
        = leBytes 4 (cfg.hash32 p).toNat := by
      simp [frameBytes, leBytes_one]
    have hlt := (cfg.hash32 p).isLt
    rw [this, fromLe_leBytes 4 _ (by norm_num at hlt ⊢; exact hlt)]
  have hs : ((frameBytes filler.length (cfg.hash32 p) p filler).drop 5).take
      (5 + p.length + filler.length - filler.length - 5) = p := by
    rw [show 5 + p.length + filler.length - filler.length - 5 = p.length by omega]
    exact slice_frameBytes _ _ _ _
  simp only [verdict, h1, h4, frameBytes_length, hs]
  rw [if_neg (by omega), if_neg (by simp)]

end Sys2Proof.Machine
end

