-- ==== Sys2Proof/Laws/State.lean ====
section
/-! SUPPORT. What each shared operation does to each field of State: one lemma per field per operation, so that no
later proof unfolds a record update. -/

namespace Sys2Proof.Machine

@[simp] theorem respond_live (st : Status) (payload : List Byte) (s : State) : (respond st payload s).live = s.live := rfl
@[simp] theorem respond_key (st : Status) (payload : List Byte) (s : State) : (respond st payload s).key = s.key := rfl
@[simp] theorem respond_bs (st : Status) (payload : List Byte) (s : State) : (respond st payload s).bs = s.bs := rfl
@[simp] theorem respond_encCnt (st : Status) (payload : List Byte) (s : State) : (respond st payload s).encCnt = s.encCnt := rfl
@[simp] theorem respond_decCnt (st : Status) (payload : List Byte) (s : State) : (respond st payload s).decCnt = s.decCnt := rfl
@[simp] theorem respond_cmdIn (st : Status) (payload : List Byte) (s : State) : (respond st payload s).cmdIn = s.cmdIn := rfl
@[simp] theorem respond_rspOut (st : Status) (payload : List Byte) (s : State) : (respond st payload s).rspOut = s.rspOut ++ responsePacket st payload := rfl
@[simp] theorem respond_entropyIn (st : Status) (payload : List Byte) (s : State) : (respond st payload s).entropyIn = s.entropyIn := rfl
@[simp] theorem respond_resetIn (st : Status) (payload : List Byte) (s : State) : (respond st payload s).resetIn = s.resetIn := rfl

@[simp] theorem raise_live (e : Status) (s : State) : (raise e s).live = s.live := rfl
@[simp] theorem raise_key (e : Status) (s : State) : (raise e s).key = s.key := rfl
@[simp] theorem raise_bs (e : Status) (s : State) : (raise e s).bs = s.bs := rfl
@[simp] theorem raise_encCnt (e : Status) (s : State) : (raise e s).encCnt = s.encCnt := rfl
@[simp] theorem raise_decCnt (e : Status) (s : State) : (raise e s).decCnt = s.decCnt := rfl
@[simp] theorem raise_cmdIn (e : Status) (s : State) : (raise e s).cmdIn = s.cmdIn := rfl
@[simp] theorem raise_rspOut (e : Status) (s : State) : (raise e s).rspOut = s.rspOut ++ responsePacket e [] := rfl
@[simp] theorem raise_entropyIn (e : Status) (s : State) : (raise e s).entropyIn = s.entropyIn := rfl
@[simp] theorem raise_resetIn (e : Status) (s : State) : (raise e s).resetIn = s.resetIn := rfl

@[simp] theorem countEnc_live (s : State) : (countEnc s).live = s.live := rfl
@[simp] theorem countEnc_key (s : State) : (countEnc s).key = s.key := rfl
@[simp] theorem countEnc_bs (s : State) : (countEnc s).bs = s.bs := rfl
@[simp] theorem countEnc_encCnt (s : State) : (countEnc s).encCnt = inc16 s.encCnt := rfl
@[simp] theorem countEnc_decCnt (s : State) : (countEnc s).decCnt = s.decCnt := rfl
@[simp] theorem countEnc_cmdIn (s : State) : (countEnc s).cmdIn = s.cmdIn := rfl
@[simp] theorem countEnc_rspOut (s : State) : (countEnc s).rspOut = s.rspOut := rfl
@[simp] theorem countEnc_entropyIn (s : State) : (countEnc s).entropyIn = s.entropyIn := rfl
@[simp] theorem countEnc_resetIn (s : State) : (countEnc s).resetIn = s.resetIn := rfl

@[simp] theorem countDec_live (s : State) : (countDec s).live = s.live := rfl
@[simp] theorem countDec_key (s : State) : (countDec s).key = s.key := rfl
@[simp] theorem countDec_bs (s : State) : (countDec s).bs = s.bs := rfl
@[simp] theorem countDec_encCnt (s : State) : (countDec s).encCnt = s.encCnt := rfl
@[simp] theorem countDec_decCnt (s : State) : (countDec s).decCnt = inc16 s.decCnt := rfl
@[simp] theorem countDec_cmdIn (s : State) : (countDec s).cmdIn = s.cmdIn := rfl
@[simp] theorem countDec_rspOut (s : State) : (countDec s).rspOut = s.rspOut := rfl
@[simp] theorem countDec_entropyIn (s : State) : (countDec s).entropyIn = s.entropyIn := rfl
@[simp] theorem countDec_resetIn (s : State) : (countDec s).resetIn = s.resetIn := rfl

@[simp] theorem install_live (k : List Byte) (s : State) : (install k s).live = true := rfl
@[simp] theorem install_key (k : List Byte) (s : State) : (install k s).key = keyImage k := rfl
@[simp] theorem install_bs (k : List Byte) (s : State) : (install k s).bs = BitVec.ofNat 6 k.length := rfl
@[simp] theorem install_encCnt (k : List Byte) (s : State) : (install k s).encCnt = 0 := rfl
@[simp] theorem install_decCnt (k : List Byte) (s : State) : (install k s).decCnt = 0 := rfl
@[simp] theorem install_cmdIn (k : List Byte) (s : State) : (install k s).cmdIn = s.cmdIn := rfl
@[simp] theorem install_rspOut (k : List Byte) (s : State) : (install k s).rspOut = s.rspOut := rfl
@[simp] theorem install_entropyIn (k : List Byte) (s : State) : (install k s).entropyIn = s.entropyIn := rfl
@[simp] theorem install_resetIn (k : List Byte) (s : State) : (install k s).resetIn = s.resetIn := rfl

@[simp] theorem wipe_live (s : State) : (wipe s).live = false := rfl
@[simp] theorem wipe_key (s : State) : (wipe s).key = Vector.replicate 32 0 := rfl
@[simp] theorem wipe_bs (s : State) : (wipe s).bs = s.bs := rfl
@[simp] theorem wipe_encCnt (s : State) : (wipe s).encCnt = s.encCnt := rfl
@[simp] theorem wipe_decCnt (s : State) : (wipe s).decCnt = s.decCnt := rfl
@[simp] theorem wipe_cmdIn (s : State) : (wipe s).cmdIn = s.cmdIn := rfl
@[simp] theorem wipe_rspOut (s : State) : (wipe s).rspOut = s.rspOut := rfl
@[simp] theorem wipe_entropyIn (s : State) : (wipe s).entropyIn = s.entropyIn := rfl
@[simp] theorem wipe_resetIn (s : State) : (wipe s).resetIn = s.resetIn := rfl

@[simp] theorem consume_live (rest : List Byte) (s : State) : (consume rest s).live = s.live := rfl
@[simp] theorem consume_key (rest : List Byte) (s : State) : (consume rest s).key = s.key := rfl
@[simp] theorem consume_bs (rest : List Byte) (s : State) : (consume rest s).bs = s.bs := rfl
@[simp] theorem consume_encCnt (rest : List Byte) (s : State) : (consume rest s).encCnt = s.encCnt := rfl
@[simp] theorem consume_decCnt (rest : List Byte) (s : State) : (consume rest s).decCnt = s.decCnt := rfl
@[simp] theorem consume_cmdIn (rest : List Byte) (s : State) : (consume rest s).cmdIn = rest := rfl
@[simp] theorem consume_rspOut (rest : List Byte) (s : State) : (consume rest s).rspOut = s.rspOut := rfl
@[simp] theorem consume_entropyIn (rest : List Byte) (s : State) : (consume rest s).entropyIn = s.entropyIn := rfl
@[simp] theorem consume_resetIn (rest : List Byte) (s : State) : (consume rest s).resetIn = s.resetIn := rfl

@[simp] theorem resetEvent_live (seg : List Byte) (later : List ResetRequest) (s : State) : (resetEvent seg later s).live = false := rfl
@[simp] theorem resetEvent_key (seg : List Byte) (later : List ResetRequest) (s : State) : (resetEvent seg later s).key = Vector.replicate 32 0 := rfl
@[simp] theorem resetEvent_bs (seg : List Byte) (later : List ResetRequest) (s : State) : (resetEvent seg later s).bs = 0 := rfl
@[simp] theorem resetEvent_encCnt (seg : List Byte) (later : List ResetRequest) (s : State) : (resetEvent seg later s).encCnt = 0 := rfl
@[simp] theorem resetEvent_decCnt (seg : List Byte) (later : List ResetRequest) (s : State) : (resetEvent seg later s).decCnt = 0 := rfl
@[simp] theorem resetEvent_cmdIn (seg : List Byte) (later : List ResetRequest) (s : State) : (resetEvent seg later s).cmdIn = seg := rfl
@[simp] theorem resetEvent_rspOut (seg : List Byte) (later : List ResetRequest) (s : State) : (resetEvent seg later s).rspOut = [] := rfl
@[simp] theorem resetEvent_entropyIn (seg : List Byte) (later : List ResetRequest) (s : State) : (resetEvent seg later s).entropyIn = s.entropyIn := rfl
@[simp] theorem resetEvent_resetIn (seg : List Byte) (later : List ResetRequest) (s : State) : (resetEvent seg later s).resetIn = later := rfl

@[simp] theorem elapse_live (s : State) : (elapse s).live = s.live := rfl
@[simp] theorem elapse_key (s : State) : (elapse s).key = s.key := rfl
@[simp] theorem elapse_bs (s : State) : (elapse s).bs = s.bs := rfl
@[simp] theorem elapse_encCnt (s : State) : (elapse s).encCnt = s.encCnt := rfl
@[simp] theorem elapse_decCnt (s : State) : (elapse s).decCnt = s.decCnt := rfl
@[simp] theorem elapse_cmdIn (s : State) : (elapse s).cmdIn = s.cmdIn := rfl
@[simp] theorem elapse_rspOut (s : State) : (elapse s).rspOut = s.rspOut := rfl
@[simp] theorem elapse_entropyIn (s : State) : (elapse s).entropyIn = s.entropyIn := rfl
@[simp] theorem elapse_resetIn (s : State) : (elapse s).resetIn = countdown 1 s.resetIn := rfl

theorem dueReset_eq_some {rs : List ResetRequest} {sent : List Byte} {later : List ResetRequest} :
    dueReset rs = some (sent, later) ↔ rs = { after := 0, sent := sent } :: later := by
  cases rs with
  | nil => simp [dueReset]
  | cons r rs => cases r; simp [dueReset, and_assoc]

/-- A reset with steps to go is not due, and its count goes down with the steps. -/
@[simp] theorem dueReset_cons (n : Nat) (sent : List Byte) (later : List ResetRequest) :
    dueReset ({ after := n, sent := sent } :: later) = if n = 0 then some (sent, later) else none := rfl

@[simp] theorem countdown_nil (n : Nat) : countdown n [] = [] := rfl

@[simp] theorem countdown_cons (n : Nat) (r : ResetRequest) (later : List ResetRequest) :
    countdown n (r :: later) = { r with after := r.after - n } :: later := rfl

@[simp] theorem countdown_zero (rs : List ResetRequest) : countdown 0 rs = rs := by
  cases rs <;> rfl

theorem countdown_countdown (m n : Nat) (rs : List ResetRequest) :
    countdown n (countdown m rs) = countdown (m + n) rs := by
  cases rs <;> simp [Nat.sub_sub]

theorem respond_respond (a b : Status) (x y : List Byte) (s : State) :
    (respond b y (respond a x s)).rspOut = s.rspOut ++ responsePacket a x ++ responsePacket b y := rfl

end Sys2Proof.Machine
end

