-- ==== Sys2Proof/Laws/Exec.lean ====
section
/-! SUPPORT. The inversion lemma of `exec`: everything a command that answers a next state can have done. -/

namespace Sys2Proof.Machine

/-- The draw succeeds exactly when the entropy has arrived (60_exceptions.md R214). -/
theorem draw_eq (n : Nat) (s : State) (h : n ≤ s.entropyIn.length) :
    draw n s = some (s.entropyIn.take n, { s with entropyIn := s.entropyIn.drop n }) :=
  if_neg (by omega)

theorem draw_none (n : Nat) (s : State) (h : s.entropyIn.length < n) : draw n s = none := if_pos h

/-- A supported key size in bits is eight times its block size in bytes. -/
theorem blockSizeOfBits_eq_some {bits : Nat} {B : BlockSize} :
    blockSizeOfBits bits = some B ↔ bits = 8 * B.bytes := by
  unfold blockSizeOfBits
  constructor
  · intro h
    split at h
    · cases h; assumption
    · split at h
      · cases h; assumption
      · split at h
        · cases h; assumption
        · cases h
  · rintro rfl
    cases B <;> decide

theorem blockSizeOfLen_eq_some {n : Nat} {B : BlockSize} :
    blockSizeOfLen n = some B ↔ n = B.bytes := by
  unfold blockSizeOfLen
  constructor
  · intro h
    split at h
    · cases h; assumption
    · split at h
      · cases h; assumption
      · split at h
        · cases h; assumption
        · cases h
  · rintro rfl
    cases B <;> decide

/-- What a command that ends with status `st` has done to the state before its response goes out. -/
def Effect (st : Status) (s s' : State) : Instr → Prop
  | .newsz _ =>
    (st = .illegalCommand ∧ s' = s) ∨ (st = .invalidKeySize ∧ s' = s) ∨
      (st = .ok ∧ ∃ B : BlockSize, B.bytes ≤ s.entropyIn.length ∧
        s' = install (s.entropyIn.take B.bytes) { s with entropyIn := s.entropyIn.drop B.bytes })
  | .newkey k =>
    (st = .invalidKeySize ∧ s' = s) ∨
      (st = .ok ∧ (∃ B : BlockSize, k.length = B.bytes) ∧ s' = install k s)
  | .enc _ =>
    (st = .illegalCommand ∧ s' = s) ∨ (st = .noContext ∧ s' = s ∧ s.live = false) ∨
      (st = .ok ∧ s.live = true ∧ s' = countEnc s)
  | .dec _ =>
    (st = .noContext ∧ s' = s ∧ s.live = false) ∨
      ((st = .ok ∨ st = .invalidCiphertextLength ∨ st = .malformedFrame ∨ st = .integrityCheckFailed) ∧
        s.live = true ∧ s' = countDec s)
  | .dispose _ => (st = .illegalCommand ∧ s' = s) ∨ (st = .ok ∧ s' = wipe s)
  | .rdenc _ => (st = .illegalCommand ∨ st = .ok) ∧ s' = s
  | .rddec _ => (st = .illegalCommand ∨ st = .ok) ∧ s' = s

/-- A command that answers a next state either is a NEWSZ whose entropy has not arrived, and changed
nothing, or had one of its effects and sent exactly one response; an error's response is empty. -/
theorem exec_next {i : Instr} {s t : State} (h : exec i s = .next t) :
    (t = s ∧ s.entropyIn.length < entropyNeed i) ∨
      ∃ st payload s', t = respond st payload s' ∧ (st ≠ .ok → payload = []) ∧
        payload.length ≤ max 4294967295 i.payload.length ∧ Effect st s s' i := by
  cases i with
  | newsz p =>
    simp only [exec, execNewsz] at h
    split at h
    · cases h; exact .inr ⟨_, [], s, rfl, by simp, by simp, .inl ⟨rfl, rfl⟩⟩
    · rename_i hlen
      split at h
      · cases h; exact .inr ⟨_, [], s, rfl, by simp, by simp, .inr (.inl ⟨rfl, rfl⟩)⟩
      · rename_i B hB
        by_cases he : s.entropyIn.length < B.bytes
        · rw [draw_none _ _ he] at h
          cases h
          refine .inl ⟨rfl, ?_⟩
          simpa [entropyNeed, not_not.mp hlen, hB] using he
        · rw [draw_eq _ _ (by omega)] at h
          cases h
          exact .inr ⟨_, [], _, rfl, by simp, by simp, .inr (.inr ⟨rfl, B, by omega, rfl⟩)⟩
  | newkey k =>
    simp only [exec, execNewkey] at h
    split at h
    · cases h; exact .inr ⟨_, [], s, rfl, by simp, by simp, .inl ⟨rfl, rfl⟩⟩
    · rename_i B hB
      cases h
      exact .inr ⟨_, [], _, rfl, by simp, by simp,
        .inr ⟨rfl, ⟨B, blockSizeOfLen_eq_some.mp hB⟩, rfl⟩⟩
  | enc p =>
    simp only [exec, execEnc] at h
    by_cases hL : engine.maxPt.val < p.length
    · rw [encWith_tooLong s hL] at h
      cases h; exact .inr ⟨_, [], s, rfl, by simp, by simp, .inl ⟨rfl, rfl⟩⟩
    · cases hl : s.live with
      | false =>
        rw [encWith_dead (by omega) hl] at h
        cases h; exact .inr ⟨_, [], s, rfl, by simp, by simp, .inr (.inl ⟨rfl, rfl, hl⟩)⟩
      | true =>
        cases hB : contextSize s with
        | none => rw [encWith_badSize (by omega) hl hB] at h; cases h
        | some B =>
          rw [encWith_live (by omega) hl hB] at h
          cases h
          refine .inr ⟨_, _, _, rfl, by simp, ?_, .inr (.inr ⟨rfl, hl, rfl⟩)⟩
          rw [ciphertext_length]
          have := padLen_lt p.length B
          have := bytes_pos B
          have := engine.maxPt.isLt
          simp only [frameLen, headerLen]
          omega
  | dec c =>
    simp only [exec, execDec] at h
    cases hl : s.live with
    | false =>
      rw [decWith_dead hl] at h
      cases h; exact .inr ⟨_, [], s, rfl, by simp, by simp, .inl ⟨rfl, rfl, hl⟩⟩
    | true =>
      cases hB : contextSize s with
      | none => rw [decWith_badSize hl hB] at h; cases h
      | some B =>
        by_cases hc : c.length = 0 ∨ c.length % B.bytes ≠ 0
        · rw [decWith_badLength hl hB hc] at h
          cases h
          exact .inr ⟨_, [], _, rfl, by simp, by simp, .inr ⟨.inr (.inl rfl), hl, rfl⟩⟩
        · rw [decWith_live hl hB hc] at h
          cases h
          obtain ⟨hp, hlen, hst⟩ := verdict_payload engine (ecbDec engine B (contextKey B s) c)
          rw [ecbDec_length _ _ _ _ (whole_blocks hc).1] at hlen
          refine .inr ⟨_, _, _, rfl, hp, ?_, .inr ⟨by tauto, hl, rfl⟩⟩
          simp only [Instr.payload]; omega
  | dispose p =>
    simp only [exec, execDispose] at h
    split at h <;> cases h
    · exact .inr ⟨_, [], s, rfl, by simp, by simp, .inl ⟨rfl, rfl⟩⟩
    · exact .inr ⟨_, [], _, rfl, by simp, by simp, .inr ⟨rfl, rfl⟩⟩
  | rdenc p =>
    simp only [exec, execRdenc] at h
    split at h <;> cases h
    · exact .inr ⟨_, [], s, rfl, by simp, by simp, .inl rfl, rfl⟩
    · exact .inr ⟨_, _, s, rfl, by simp, by simp, .inr rfl, rfl⟩
  | rddec p =>
    simp only [exec, execRddec] at h
    split at h <;> cases h
    · exact .inr ⟨_, [], s, rfl, by simp, by simp, .inl rfl, rfl⟩
    · exact .inr ⟨_, _, s, rfl, by simp, by simp, .inr rfl, rfl⟩

/-- A change of the next state, where there is one. -/
def onNext (f : State → State) : Host.Outcome State Fault Refusal → Host.Outcome State Fault Refusal
  | .next t => .next (f t)
  | .fault r => .fault r
  | .refused r => .refused r

/-- The two inputs the host arranges, replaced. -/
def setInputs (bytes : List Byte) (resets : List ResetRequest) (s : State) : State :=
  { s with cmdIn := bytes, resetIn := resets }

/-- No command reads or writes the command stream or the reset input: what the host has arranged behind a
packet makes no difference to it. -/
theorem exec_setInputs (i : Instr) (bytes : List Byte) (resets : List ResetRequest) (s : State) :
    exec i (setInputs bytes resets s) = onNext (setInputs bytes resets) (exec i s) := by
  cases i with
  | newsz p =>
    simp only [exec, execNewsz]
    split
    · rfl
    · cases blockSizeOfBits (newszBits p) with
      | none => rfl
      | some B =>
        by_cases he : s.entropyIn.length < B.bytes
        · simp only [draw_none B.bytes s he, draw_none B.bytes (setInputs bytes resets s) (by exact he), onNext]
        · simp only [draw_eq B.bytes s (by omega),
            draw_eq B.bytes (setInputs bytes resets s) (by show _ ≤ s.entropyIn.length; omega)]
          rfl
  | newkey k => simp only [exec, execNewkey]; cases blockSizeOfLen k.length <;> rfl
  | enc p =>
    simp only [exec, execEnc]
    by_cases hL : engine.maxPt.val < p.length
    · rw [encWith_tooLong _ hL, encWith_tooLong _ hL]; rfl
    · cases hl : s.live with
      | false => rw [encWith_dead (by omega) hl, encWith_dead (by omega) (by exact hl)]; rfl
      | true =>
        cases hB : contextSize s with
        | none => rw [encWith_badSize (by omega) hl hB, encWith_badSize (by omega) (by exact hl) (by exact hB)]; rfl
        | some B => rw [encWith_live (by omega) hl hB, encWith_live (by omega) (by exact hl) (by exact hB)]; rfl
  | dec c =>
    simp only [exec, execDec]
    cases hl : s.live with
    | false => rw [decWith_dead hl, decWith_dead (by exact hl)]; rfl
    | true =>
      cases hB : contextSize s with
      | none => rw [decWith_badSize hl hB, decWith_badSize (by exact hl) (by exact hB)]; rfl
      | some B =>
        by_cases hc : c.length = 0 ∨ c.length % B.bytes ≠ 0
        · rw [decWith_badLength hl hB hc, decWith_badLength (by exact hl) (by exact hB) hc]; rfl
        · rw [decWith_live hl hB hc, decWith_live (by exact hl) (by exact hB) hc]; rfl
  | dispose p => simp only [exec, execDispose]; split <;> rfl
  | rdenc p => simp only [exec, execRdenc]; split <;> rfl
  | rddec p => simp only [exec, execRddec]; split <;> rfl

/-- What a command sends is appended to the response stream, and nothing it does depends on what was sent
before. -/
theorem exec_rspOut {i : Instr} {s t : State} (h : exec i s = .next t) :
    ∃ r, t.rspOut = s.rspOut ++ r ∧
      ∀ o, exec i { s with rspOut := o } = .next { t with rspOut := o ++ r } := by
  cases i with
  | newsz p =>
    simp only [exec, execNewsz] at h ⊢
    by_cases hp : p.length ≠ 2
    · rw [if_pos hp] at h
      cases h; exact ⟨_, rfl, fun o => if_pos hp⟩
    · simp only [if_neg hp] at h ⊢
      cases hB : blockSizeOfBits (newszBits p) with
      | none => rw [hB] at h; cases h; exact ⟨_, rfl, fun o => rfl⟩
      | some B =>
        simp only [hB] at h ⊢
        by_cases he : s.entropyIn.length < B.bytes
        · rw [draw_none _ _ he] at h
          cases h
          refine ⟨[], by simp, fun o => ?_⟩
          rw [draw_none _ _ (by exact he)]; simp
        · rw [draw_eq _ _ (by omega)] at h
          cases h
          refine ⟨_, rfl, fun o => ?_⟩
          rw [draw_eq _ _ (by show _ ≤ s.entropyIn.length; omega)]; rfl
  | newkey k =>
    simp only [exec, execNewkey] at h ⊢
    cases hB : blockSizeOfLen k.length <;> rw [hB] at h <;> cases h <;> exact ⟨_, rfl, fun o => rfl⟩
  | enc p =>
    simp only [exec, execEnc] at h ⊢
    by_cases hL : engine.maxPt.val < p.length
    · rw [encWith_tooLong s hL] at h
      cases h; exact ⟨_, rfl, fun o => encWith_tooLong _ hL⟩
    · have hL : p.length ≤ engine.maxPt.val := by omega
      by_cases hl : s.live = false
      · rw [encWith_dead hL hl] at h
        cases h
        exact ⟨_, rfl, fun o => encWith_dead (s := { s with rspOut := o }) hL hl⟩
      · rw [Bool.not_eq_false] at hl
        cases hB : contextSize s with
        | none => rw [encWith_badSize hL hl hB] at h; cases h
        | some B =>
          rw [encWith_live hL hl hB] at h
          cases h
          exact ⟨_, rfl, fun o => encWith_live (s := { s with rspOut := o }) hL hl hB⟩
  | dec c =>
    simp only [exec, execDec] at h ⊢
    by_cases hl : s.live = false
    · rw [decWith_dead hl] at h
      cases h
      exact ⟨_, rfl, fun o => decWith_dead (s := { s with rspOut := o }) hl⟩
    · rw [Bool.not_eq_false] at hl
      cases hB : contextSize s with
      | none => rw [decWith_badSize hl hB] at h; cases h
      | some B =>
        by_cases hc : c.length = 0 ∨ c.length % B.bytes ≠ 0
        · rw [decWith_badLength hl hB hc] at h
          cases h
          exact ⟨_, rfl, fun o => decWith_badLength (s := { s with rspOut := o }) hl hB hc⟩
        · rw [decWith_live hl hB hc] at h
          cases h
          exact ⟨_, rfl, fun o => decWith_live (s := { s with rspOut := o }) hl hB hc⟩
  | dispose p =>
    simp only [exec, execDispose] at h ⊢
    by_cases hp : p.length ≠ 0
    · rw [if_pos hp] at h; cases h; exact ⟨_, rfl, fun o => if_pos hp⟩
    · rw [if_neg hp] at h; cases h; exact ⟨_, rfl, fun o => if_neg hp⟩
  | rdenc p =>
    simp only [exec, execRdenc] at h ⊢
    by_cases hp : p.length ≠ 0
    · rw [if_pos hp] at h; cases h; exact ⟨_, rfl, fun o => if_pos hp⟩
    · rw [if_neg hp] at h; cases h; exact ⟨_, rfl, fun o => if_neg hp⟩
  | rddec p =>
    simp only [exec, execRddec] at h ⊢
    by_cases hp : p.length ≠ 0
    · rw [if_pos hp] at h; cases h; exact ⟨_, rfl, fun o => if_pos hp⟩
    · rw [if_neg hp] at h; cases h; exact ⟨_, rfl, fun o => if_neg hp⟩

/-- A command that does not have to wait draws exactly the entropy it needs (60_exceptions.md R214). -/
theorem exec_entropy {i : Instr} {s t : State} (h : exec i s = .next t)
    (he : entropyNeed i ≤ s.entropyIn.length) : s.entropyIn.length = t.entropyIn.length + entropyNeed i := by
  cases i with
  | newsz p =>
    simp only [exec, execNewsz, entropyNeed] at h he ⊢
    split at h
    · rename_i hp; cases h; simp [hp]
    · rename_i hp
      simp only [not_not.mp hp, if_true] at he ⊢
      split at h
      · rename_i hb; cases h; simp [hb]
      · rename_i B hb
        rw [hb] at he ⊢
        simp only at he ⊢
        rw [draw_eq _ _ he] at h
        cases h
        simp only [respond_entropyIn, install_entropyIn, List.length_drop]
        omega
  | _ =>
    rcases exec_next h with ⟨rfl, h2⟩ | ⟨st, payload, s', rfl, -, -, heff⟩
    · simp [entropyNeed] at h2
    · have hs : s'.entropyIn = s.entropyIn := by
        simp only [Effect] at heff
        rcases heff with heff | heff | heff <;> simp_all
      simp [entropyNeed, hs]

/-- A command never stops the engine but in a live context whose block size is none of the three. -/
theorem exec_answers (i : Instr) (s : State) (h : s.live = true → ∃ B : BlockSize, s.bs.toNat = B.bytes) :
    ∃ t, exec i s = .next t := by
  cases i with
  | newsz p =>
    simp only [exec, execNewsz]
    split
    · exact ⟨_, rfl⟩
    · split
      · exact ⟨_, rfl⟩
      · split <;> exact ⟨_, rfl⟩
  | newkey k => simp only [exec, execNewkey]; split <;> exact ⟨_, rfl⟩
  | enc p =>
    simp only [exec, execEnc]
    by_cases hL : engine.maxPt.val < p.length
    · exact ⟨_, encWith_tooLong s hL⟩
    · cases hl : s.live with
      | false => exact ⟨_, encWith_dead (by omega) hl⟩
      | true =>
        obtain ⟨B, hB⟩ := h hl
        exact ⟨_, encWith_live (by omega) hl (contextSize_eq_some.mpr hB)⟩
  | dec c =>
    simp only [exec, execDec]
    cases hl : s.live with
    | false => exact ⟨_, decWith_dead hl⟩
    | true =>
      obtain ⟨B, hB⟩ := h hl
      by_cases hc : c.length = 0 ∨ c.length % B.bytes ≠ 0
      · exact ⟨_, decWith_badLength hl (contextSize_eq_some.mpr hB) hc⟩
      · exact ⟨_, decWith_live hl (contextSize_eq_some.mpr hB) hc⟩
  | dispose p => simp only [exec, execDispose]; split <;> exact ⟨_, rfl⟩
  | rdenc p => simp only [exec, execRdenc]; split <;> exact ⟨_, rfl⟩
  | rddec p => simp only [exec, execRddec]; split <;> exact ⟨_, rfl⟩

end Sys2Proof.Machine
end

