-- ==== Sys2Proof/Laws/PerInstr.lean ====
section
/-! SUPPORT. One statement per command, lemma by lemma: the family the host's case split names (LAWS.json). -/

namespace Sys2Proof.Laws.OpcodeRow

/-- A command's opcode row (spec/30_encoding.md R51, R59): the opcode map reads its opcode and payload
back as the command itself, the opcode is one of 0x01 to 0x07, and the packet is `5 + len` bytes with
the opcode first. -/
def Statement (i : Instr) : Prop :=
  commandOf (opcodeOf i) i.payload = some i ∧
    1 ≤ (opcodeOf i).toNat ∧ (opcodeOf i).toNat ≤ 7 ∧
    (encode i).head? = some (opcodeOf i) ∧ (encode i).length = 5 + i.payload.length

theorem newsz (p : List Byte) : Statement (.newsz p) := by
  refine ⟨rfl, by simp [opcodeOf], by simp [opcodeOf], rfl, ?_⟩
  simp [encode, commandPacket]; omega

theorem newkey (p : List Byte) : Statement (.newkey p) := by
  refine ⟨rfl, by simp [opcodeOf], by simp [opcodeOf], rfl, ?_⟩
  simp [encode, commandPacket]; omega

theorem enc (p : List Byte) : Statement (.enc p) := by
  refine ⟨rfl, by simp [opcodeOf], by simp [opcodeOf], rfl, ?_⟩
  simp [encode, commandPacket]; omega

theorem dec (p : List Byte) : Statement (.dec p) := by
  refine ⟨rfl, by simp [opcodeOf], by simp [opcodeOf], rfl, ?_⟩
  simp [encode, commandPacket]; omega

theorem dispose (p : List Byte) : Statement (.dispose p) := by
  refine ⟨rfl, by simp [opcodeOf], by simp [opcodeOf], rfl, ?_⟩
  simp [encode, commandPacket]; omega

theorem rdenc (p : List Byte) : Statement (.rdenc p) := by
  refine ⟨rfl, by simp [opcodeOf], by simp [opcodeOf], rfl, ?_⟩
  simp [encode, commandPacket]; omega

theorem rddec (p : List Byte) : Statement (.rddec p) := by
  refine ⟨rfl, by simp [opcodeOf], by simp [opcodeOf], rfl, ?_⟩
  simp [encode, commandPacket]; omega

end Sys2Proof.Laws.OpcodeRow
end

