-- ==== Sys2Proof/Laws/Rijndael.lean ====
section
/-! SUPPORT. Each step of Rijndael is undone by the matching step of its inverse (spec/45_block_cipher.md R168 to
R176): the S-boxes, the row shifts, the column mixes and the round keys. -/

set_option Elab.async false

namespace Sys2Proof.Machine

/-- A fact about every byte, from its 256 cases. -/
theorem byte_cases {P : Byte → Prop} (h : ∀ n : Fin 256, P (BitVec.ofFin n)) (a : Byte) : P a :=
  h a.toFin

theorem invSbox_sbox (a : Byte) : invSbox (sbox a) = a :=
  byte_cases (P := fun a => invSbox (sbox a) = a) (by decide +kernel) a

theorem sbox_invSbox (a : Byte) : sbox (invSbox a) = a :=
  byte_cases (P := fun a => sbox (invSbox a) = a) (by decide +kernel) a

theorem xtime_xor (a b : Byte) : xtime (a ^^^ b) = xtime a ^^^ xtime b := by
  have hs : (a ^^^ b) <<< 1 = a <<< 1 ^^^ b <<< 1 := BitVec.shiftLeft_xor_distrib a b 1
  have hm : (a ^^^ b).msb = (a.msb ^^ b.msb) := BitVec.msb_xor
  unfold xtime
  rw [hs, hm]
  cases a.msb <;> cases b.msb <;> simp only [Bool.xor_false, Bool.xor_true, Bool.not_true,
    Bool.not_false, if_true, if_false, Bool.false_eq_true] <;> ac_nf
  simp

theorem gmulBits_xor (n : Nat) (c a b : Byte) :
    gmulBits n c (a ^^^ b) = gmulBits n c a ^^^ gmulBits n c b := by
  induction n generalizing c a b with
  | zero => simp [gmulBits]
  | succ n ih =>
    simp only [gmulBits, xtime_xor, ih]
    cases c.getLsbD 0
    · simp
    · simp only [if_true]; ac_rfl

/-- Multiplication by a constant is linear (45_block_cipher.md R168). -/
theorem gmul_xor (c a b : Byte) : gmul c (a ^^^ b) = gmul c a ^^^ gmul c b :=
  gmulBits_xor 8 c a b

/-- The product of the two circulant matrices of 45_block_cipher.md R174 has ones on its diagonal … -/
theorem unmix_diagonal (a : Byte) :
    gmul 0x0e (gmul 2 a) ^^^ gmul 0x0b a ^^^ gmul 0x0d a ^^^ gmul 0x09 (gmul 3 a) = a :=
  byte_cases (P := fun a => gmul 0x0e (gmul 2 a) ^^^ gmul 0x0b a ^^^ gmul 0x0d a ^^^ gmul 0x09 (gmul 3 a) = a)
    (by decide +kernel) a

/-- … and zeros off it. -/
theorem unmix_first (a : Byte) :
    gmul 0x0e (gmul 3 a) ^^^ gmul 0x0b (gmul 2 a) ^^^ gmul 0x0d a ^^^ gmul 0x09 a = 0 :=
  byte_cases (P := fun a => gmul 0x0e (gmul 3 a) ^^^ gmul 0x0b (gmul 2 a) ^^^ gmul 0x0d a ^^^ gmul 0x09 a = 0)
    (by decide +kernel) a

theorem unmix_second (a : Byte) :
    gmul 0x0e a ^^^ gmul 0x0b (gmul 3 a) ^^^ gmul 0x0d (gmul 2 a) ^^^ gmul 0x09 a = 0 :=
  byte_cases (P := fun a => gmul 0x0e a ^^^ gmul 0x0b (gmul 3 a) ^^^ gmul 0x0d (gmul 2 a) ^^^ gmul 0x09 a = 0)
    (by decide +kernel) a

theorem unmix_third (a : Byte) :
    gmul 0x0e a ^^^ gmul 0x0b a ^^^ gmul 0x0d (gmul 3 a) ^^^ gmul 0x09 (gmul 2 a) = 0 :=
  byte_cases (P := fun a => gmul 0x0e a ^^^ gmul 0x0b a ^^^ gmul 0x0d (gmul 3 a) ^^^ gmul 0x09 (gmul 2 a) = 0)
    (by decide +kernel) a

/-- Multiplications by constants commute. -/
theorem gmul_swap (a : Byte) :
    (gmul 2 (gmul 0x0e a) = gmul 0x0e (gmul 2 a) ∧ gmul 3 (gmul 0x0e a) = gmul 0x0e (gmul 3 a)) ∧
    (gmul 2 (gmul 0x0b a) = gmul 0x0b (gmul 2 a) ∧ gmul 3 (gmul 0x0b a) = gmul 0x0b (gmul 3 a)) ∧
    (gmul 2 (gmul 0x0d a) = gmul 0x0d (gmul 2 a) ∧ gmul 3 (gmul 0x0d a) = gmul 0x0d (gmul 3 a)) ∧
    (gmul 2 (gmul 0x09 a) = gmul 0x09 (gmul 2 a) ∧ gmul 3 (gmul 0x09 a) = gmul 0x09 (gmul 3 a)) :=
  byte_cases (P := fun a =>
    (gmul 2 (gmul 0x0e a) = gmul 0x0e (gmul 2 a) ∧ gmul 3 (gmul 0x0e a) = gmul 0x0e (gmul 3 a)) ∧
    (gmul 2 (gmul 0x0b a) = gmul 0x0b (gmul 2 a) ∧ gmul 3 (gmul 0x0b a) = gmul 0x0b (gmul 3 a)) ∧
    (gmul 2 (gmul 0x0d a) = gmul 0x0d (gmul 2 a) ∧ gmul 3 (gmul 0x0d a) = gmul 0x0d (gmul 3 a)) ∧
    (gmul 2 (gmul 0x09 a) = gmul 0x09 (gmul 2 a) ∧ gmul 3 (gmul 0x09 a) = gmul 0x09 (gmul 3 a)))
    (by decide +kernel) a

/-- Row 0 of InvMixColumns after MixColumns; the other rows are this one with the column rotated. -/
theorem unmix_row (a b c d : Byte) :
    gmul 0x0e (gmul 2 a ^^^ gmul 3 b ^^^ c ^^^ d) ^^^ gmul 0x0b (a ^^^ gmul 2 b ^^^ gmul 3 c ^^^ d) ^^^
      gmul 0x0d (a ^^^ b ^^^ gmul 2 c ^^^ gmul 3 d) ^^^ gmul 0x09 (gmul 3 a ^^^ b ^^^ c ^^^ gmul 2 d) = a := by
  simp only [gmul_xor]
  calc _ = (gmul 0x0e (gmul 2 a) ^^^ gmul 0x0b a ^^^ gmul 0x0d a ^^^ gmul 0x09 (gmul 3 a)) ^^^
        (gmul 0x0e (gmul 3 b) ^^^ gmul 0x0b (gmul 2 b) ^^^ gmul 0x0d b ^^^ gmul 0x09 b) ^^^
        (gmul 0x0e c ^^^ gmul 0x0b (gmul 3 c) ^^^ gmul 0x0d (gmul 2 c) ^^^ gmul 0x09 c) ^^^
        (gmul 0x0e d ^^^ gmul 0x0b d ^^^ gmul 0x0d (gmul 3 d) ^^^ gmul 0x09 (gmul 2 d)) := by ac_rfl
    _ = a := by rw [unmix_diagonal, unmix_first, unmix_second, unmix_third]; simp

/-- Row 0 of MixColumns after InvMixColumns; the other rows are this one with the column rotated. -/
theorem mix_row (a b c d : Byte) :
    gmul 2 (gmul 0x0e a ^^^ gmul 0x0b b ^^^ gmul 0x0d c ^^^ gmul 0x09 d) ^^^
      gmul 3 (gmul 0x09 a ^^^ gmul 0x0e b ^^^ gmul 0x0b c ^^^ gmul 0x0d d) ^^^
      (gmul 0x0d a ^^^ gmul 0x09 b ^^^ gmul 0x0e c ^^^ gmul 0x0b d) ^^^
      (gmul 0x0b a ^^^ gmul 0x0d b ^^^ gmul 0x09 c ^^^ gmul 0x0e d) = a := by
  simp only [gmul_xor, (gmul_swap _).1.1, (gmul_swap _).1.2, (gmul_swap _).2.1.1, (gmul_swap _).2.1.2,
    (gmul_swap _).2.2.1.1, (gmul_swap _).2.2.1.2, (gmul_swap _).2.2.2.1, (gmul_swap _).2.2.2.2]
  calc _ = (gmul 0x0e (gmul 2 a) ^^^ gmul 0x0b a ^^^ gmul 0x0d a ^^^ gmul 0x09 (gmul 3 a)) ^^^
        (gmul 0x0e (gmul 3 b) ^^^ gmul 0x0b (gmul 2 b) ^^^ gmul 0x0d b ^^^ gmul 0x09 b) ^^^
        (gmul 0x0e c ^^^ gmul 0x0b (gmul 3 c) ^^^ gmul 0x0d (gmul 2 c) ^^^ gmul 0x09 c) ^^^
        (gmul 0x0e d ^^^ gmul 0x0b d ^^^ gmul 0x0d (gmul 3 d) ^^^ gmul 0x09 (gmul 2 d)) := by ac_rfl
    _ = a := by rw [unmix_diagonal, unmix_first, unmix_second, unmix_third]; simp

/-- Each column is restored (45_block_cipher.md R174). -/
theorem unmix_mix (s : List Byte) : mapColumns invMixColumn (mapColumns mixColumn s) = s := by
  match s with
  | a :: b :: c :: d :: rest =>
    simp only [mapColumns, mixColumn, List.cons_append, List.nil_append, invMixColumn, unmix_mix rest,
      List.cons.injEq, and_true]
    refine ⟨unmix_row a b c d, ?_, ?_, ?_⟩
    · calc _ = _ := by ac_rfl
        _ = b := unmix_row b c d a
    · calc _ = _ := by ac_rfl
        _ = c := unmix_row c d a b
    · calc _ = _ := by ac_rfl
        _ = d := unmix_row d a b c
  | [] => rfl
  | [_] => rfl
  | [_, _] => rfl
  | [_, _, _] => rfl

theorem mix_unmix (s : List Byte) : mapColumns mixColumn (mapColumns invMixColumn s) = s := by
  match s with
  | a :: b :: c :: d :: rest =>
    simp only [mapColumns, mixColumn, List.cons_append, List.nil_append, invMixColumn, mix_unmix rest,
      List.cons.injEq, and_true]
    refine ⟨mix_row a b c d, ?_, ?_, ?_⟩
    · calc _ = _ := by ac_rfl
        _ = b := mix_row b c d a
    · calc _ = _ := by ac_rfl
        _ = c := mix_row c d a b
    · calc _ = _ := by ac_rfl
        _ = d := mix_row d a b c
  | [] => rfl
  | [_] => rfl
  | [_, _] => rfl
  | [_, _, _] => rfl

theorem mapColumns_length (f : Byte → Byte → Byte → Byte → List Byte)
    (hf : ∀ a b c d, (f a b c d).length = 4) (s : List Byte) : (mapColumns f s).length = s.length := by
  match s with
  | a :: b :: c :: d :: rest =>
    simp only [mapColumns, List.length_append, hf, mapColumns_length f hf rest, List.length_cons]
    omega
  | [] => rfl
  | [_] => rfl
  | [_, _] => rfl
  | [_, _, _] => rfl

@[simp] theorem xorBytes_length (s k : List Byte) : (xorBytes s k).length = min s.length k.length := by
  simp [xorBytes]

/-- Adding a round key of the state's length twice restores the state (45_block_cipher.md R173). -/
theorem xorBytes_twice (s k : List Byte) (h : s.length = k.length) : xorBytes (xorBytes s k) k = s := by
  induction s generalizing k with
  | nil => simp [xorBytes]
  | cons a s ih =>
    cases k with
    | nil => simp at h
    | cons b k =>
      have hab : a ^^^ b ^^^ b = a := by rw [BitVec.xor_assoc]; simp
      simp only [xorBytes, List.zipWith_cons_cons, hab, List.cons.injEq, true_and]
      exact ih k (by simpa using h)

@[simp] theorem permuteBytes_length (B : BlockSize) (f : Nat → Nat) (s : List Byte) :
    (permuteBytes B f s).length = B.bytes := by
  simp [permuteBytes]

/-- Two byte permutations that undo each other. -/
theorem permuteBytes_permuteBytes (B : BlockSize) (f g : Nat → Nat) (s : List Byte)
    (hs : s.length = B.bytes) (hg : ∀ j < B.bytes, g j < B.bytes) (hfg : ∀ j < B.bytes, f (g j) = j) :
    permuteBytes B g (permuteBytes B f s) = s := by
  apply List.ext_getElem
  · simp [hs]
  · intro j h1 h2
    simp only [permuteBytes_length] at h1
    have hgj := hg j h1
    simp [permuteBytes, hgj, hfg j h1, h2]

theorem shiftSource_inv (B : BlockSize) :
    (∀ j < B.bytes, invShiftSource B j < B.bytes ∧ shiftSource B (invShiftSource B j) = j) ∧
      (∀ j < B.bytes, shiftSource B j < B.bytes ∧ invShiftSource B (shiftSource B j) = j) := by
  cases B <;> decide +kernel

/-- InvShiftRows undoes ShiftRows (45_block_cipher.md R172). -/
theorem unshift_shift (B : BlockSize) (s : List Byte) (hs : s.length = B.bytes) :
    permuteBytes B (invShiftSource B) (permuteBytes B (shiftSource B) s) = s :=
  permuteBytes_permuteBytes B _ _ s hs (fun j h => ((shiftSource_inv B).1 j h).1)
    (fun j h => ((shiftSource_inv B).1 j h).2)

theorem shift_unshift (B : BlockSize) (s : List Byte) (hs : s.length = B.bytes) :
    permuteBytes B (shiftSource B) (permuteBytes B (invShiftSource B) s) = s :=
  permuteBytes_permuteBytes B _ _ s hs (fun j h => ((shiftSource_inv B).2 j h).1)
    (fun j h => ((shiftSource_inv B).2 j h).2)

theorem sub_unsub (s : List Byte) : (s.map sbox).map invSbox = s := by
  simp [List.map_map, Function.comp_def, invSbox_sbox]

theorem unsub_sub (s : List Byte) : (s.map invSbox).map sbox = s := by
  simp [List.map_map, Function.comp_def, sbox_invSbox]

theorem mixColumns_length (s : List Byte) : (mapColumns mixColumn s).length = s.length :=
  mapColumns_length _ (fun _ _ _ _ => rfl) s

theorem invMixColumns_length (s : List Byte) : (mapColumns invMixColumn s).length = s.length :=
  mapColumns_length _ (fun _ _ _ _ => rfl) s

/-- Every word of a growing key schedule has four bytes, and the schedule grows by one word a step. -/
theorem expandWords_shape (nk n i : Nat) (ws : List (List Byte)) (hk : 0 < nk) (hn : nk ≤ ws.length)
    (h4 : ∀ w ∈ ws, w.length = 4) :
    (expandWords nk n i ws).length = ws.length + n ∧ ∀ w ∈ expandWords nk n i ws, w.length = 4 := by
  induction n generalizing i ws with
  | zero => exact ⟨rfl, h4⟩
  | succ n ih =>
    have hget : ∀ j, j < ws.length → (ws.getD j []).length = 4 := by
      intro j hj
      rw [List.getD_eq_getElem?_getD, List.getElem?_eq_getElem hj]
      exact h4 _ (List.getElem_mem hj)
    have hsched : (scheduleWord nk i (ws.getD 0 [])).length = 4 := by
      have h0 := hget 0 (by omega)
      unfold scheduleWord
      split
      · simp only [xorBytes_length, List.length_map, rotWord, List.length_append, List.length_drop,
          List.length_take, h0]
        rfl
      · split
        · rw [List.length_map]; exact h0
        · exact h0
    have hnew : (xorBytes (ws.getD (nk - 1) []) (scheduleWord nk i (ws.getD 0 []))).length = 4 := by
      rw [xorBytes_length, hget _ (by omega), hsched]; rfl
    obtain ⟨hl, hw⟩ := ih (i + 1)
      (xorBytes (ws.getD (nk - 1) []) (scheduleWord nk i (ws.getD 0 [])) :: ws)
      (by simp; omega) (by
        intro w hw
        rcases List.mem_cons.mp hw with rfl | hw
        · exact hnew
        · exact h4 w hw)
    exact ⟨by rw [expandWords, hl, List.length_cons]; omega, hw⟩

theorem wordsOf_shape (n : Nat) (l : List Byte) (h : l.length = 4 * n) :
    (wordsOf n l).length = n ∧ ∀ w ∈ wordsOf n l, w.length = 4 := by
  induction n generalizing l with
  | zero => simp [wordsOf]
  | succ n ih =>
    obtain ⟨h1, h2⟩ := ih (l.drop 4) (by simp; omega)
    refine ⟨by simp [wordsOf, h1], ?_⟩
    intro w hw
    rcases List.mem_cons.mp hw with rfl | hw
    · simp; omega
    · exact h2 w hw

theorem columns_bytes (B : BlockSize) : B.bytes = 4 * columns B ∧ 0 < columns B := by
  cases B <;> decide

/-- The expanded key is `Nb*(Nr+1)` words of four bytes (45_block_cipher.md R171). -/
theorem expandKey_shape (B : BlockSize) (k : List Byte) (h : k.length = B.bytes) :
    (expandKey B k).length = columns B * (rounds B + 1) ∧ ∀ w ∈ expandKey B k, w.length = 4 := by
  obtain ⟨hb, hc⟩ := columns_bytes B
  obtain ⟨h1, h2⟩ := wordsOf_shape (columns B) k (by omega)
  obtain ⟨h3, h4⟩ := expandWords_shape (columns B) (columns B * rounds B) (columns B)
    (wordsOf (columns B) k).reverse hc (by simp [h1]) (by simpa using h2)
  refine ⟨?_, by simpa [expandKey] using h4⟩
  rw [expandKey, List.length_reverse, h3, List.length_reverse, h1, Nat.mul_add]
  omega

theorem flatten_length_four (ws : List (List Byte)) (h : ∀ w ∈ ws, w.length = 4) :
    ws.flatten.length = 4 * ws.length := by
  induction ws with
  | nil => rfl
  | cons w ws ih =>
    rw [List.flatten_cons, List.length_append, h w (by simp), ih (fun v hv => h v (by simp [hv])),
      List.length_cons]
    omega

/-- Every round key has the state's length. -/
theorem roundKey_length (B : BlockSize) (k : List Byte) (h : k.length = B.bytes) (r : Nat)
    (hr : r ≤ rounds B) : (roundKey B (expandKey B k) r).length = B.bytes := by
  obtain ⟨hl, h4⟩ := expandKey_shape B k h
  obtain ⟨hb, _⟩ := columns_bytes B
  have hroom : r * columns B + columns B ≤ columns B * (rounds B + 1) := by
    rw [← Nat.succ_mul, Nat.mul_comm]
    exact Nat.mul_le_mul_left _ (by omega)
  rw [roundKey, flatten_length_four _ (fun w hw => h4 w (List.mem_of_mem_drop (List.mem_of_mem_take hw))),
    List.length_take, List.length_drop, hl, hb]
  omega

/-- One inner round is undone by the matching inverse round, and the other way round. -/
theorem invCipherRound_cipherRound (B : BlockSize) (rk s : List Byte) (hk : rk.length = B.bytes)
    (hs : s.length = B.bytes) : invCipherRound B rk (cipherRound B rk s) = s := by
  rw [invCipherRound, cipherRound, xorBytes_twice _ _ (by rw [mixColumns_length]; simp [hk]), unmix_mix,
    unshift_shift _ _ (by simpa using hs), sub_unsub]

theorem cipherRound_invCipherRound (B : BlockSize) (rk s : List Byte) (hk : rk.length = B.bytes)
    (hs : s.length = B.bytes) : cipherRound B rk (invCipherRound B rk s) = s := by
  rw [invCipherRound, cipherRound, unsub_sub,
    shift_unshift _ _ (by rw [invMixColumns_length]; simp [hk, hs]), mix_unmix,
    xorBytes_twice _ _ (by omega)]

theorem invLastRound_lastRound (B : BlockSize) (rk s : List Byte) (hk : rk.length = B.bytes)
    (hs : s.length = B.bytes) : invLastRound B rk (lastRound B rk s) = s := by
  rw [invLastRound, lastRound, xorBytes_twice _ _ (by simp [hk]), unshift_shift _ _ (by simpa using hs),
    sub_unsub]

theorem lastRound_invLastRound (B : BlockSize) (rk s : List Byte) (hk : rk.length = B.bytes)
    (hs : s.length = B.bytes) : lastRound B rk (invLastRound B rk s) = s := by
  rw [invLastRound, lastRound, unsub_sub, shift_unshift _ _ (by simp [hk, hs]),
    xorBytes_twice _ _ (by omega)]

theorem cipherRound_length (B : BlockSize) (rk s : List Byte) (hk : rk.length = B.bytes) :
    (cipherRound B rk s).length = B.bytes := by
  rw [cipherRound, xorBytes_length, mixColumns_length]; simp [hk]

theorem invCipherRound_length (B : BlockSize) (rk s : List Byte) :
    (invCipherRound B rk s).length = B.bytes := by
  simp [invCipherRound]

end Sys2Proof.Machine
end

