-- ==== Sys2Proof/Laws/Step.lean ====
section
/-! SUPPORT. Everything a step can do: be a reset, wait, refuse an illegal packet, or execute a command
(spec/00_scope.md R8; spec/30_encoding.md R60, R63; spec/70_reset_and_hazards.md R231). -/

namespace Sys2Proof.Machine

theorem step_of_reset {s : State} {sent : List Byte} {later : List ResetRequest}
    (h : s.resetIn = { after := 0, sent := sent } :: later) : step s = .next (resetEvent sent later s) := by
  rw [step, dueReset_eq_some.mpr h]

theorem step_of_noReset {s : State} (h : dueReset s.resetIn = none) : step s = serve (elapse s) := by
  rw [step, h]

theorem serve_of_command {s : State} {i : Instr} {rest : List Byte} (h : decode s.cmdIn = .command i rest)
    (he : entropyNeed i ≤ s.entropyIn.length) : serve s = exec i (consume rest s) := by
  rw [serve, h]
  exact if_neg (by omega)

/-- A NEWSZ whose draw has not arrived waits. -/
theorem serve_of_noEntropy {s : State} {i : Instr} {rest : List Byte} (h : decode s.cmdIn = .command i rest)
    (he : s.entropyIn.length < entropyNeed i) : serve s = .next s := by
  rw [serve, h]
  exact if_pos he

theorem serve_of_illegal {s : State} {op : Byte} {rest : List Byte} (h : decode s.cmdIn = .illegal op rest) :
    serve s = .next (raise .illegalCommand (consume rest s)) := by
  rw [serve, h]

theorem serve_of_truncated {s : State} (h : decode s.cmdIn = .truncated) : serve s = .next s := by
  rw [serve, h]

/-- Serving the stream, where it answers a next state, was waiting, refusing an illegal packet, or
executing the command at the head of the stream. -/
theorem serve_next {s t : State} (h : serve s = .next t) :
    t = s ∨ (∃ rest, t = raise .illegalCommand (consume rest s)) ∨
      ∃ i rest, decode s.cmdIn = .command i rest ∧ entropyNeed i ≤ s.entropyIn.length ∧
        exec i (consume rest s) = .next t := by
  unfold serve at h
  split at h
  · rename_i i rest hd
    split at h
    · cases h; exact .inl rfl
    · exact .inr (.inr ⟨i, rest, hd, by omega, h⟩)
  · cases h; exact .inr (.inl ⟨_, rfl⟩)
  · cases h; exact .inl rfl

/-- A step that answers a next state was a reset, or served the stream. -/
theorem step_next {s t : State} (h : step s = .next t) :
    (∃ sent later, s.resetIn = { after := 0, sent := sent } :: later ∧ t = resetEvent sent later s) ∨
      dueReset s.resetIn = none ∧ serve (elapse s) = .next t := by
  unfold step at h
  split at h
  · rename_i sent later hr
    cases h
    exact .inl ⟨sent, later, dueReset_eq_some.mp hr, rfl⟩
  · rename_i hr
    exact .inr ⟨hr, h⟩

end Sys2Proof.Machine
end

