-- ==== Sys2Proof/Tests/Slice0.lean ====
section
/-! SUPPORT. Tests. Every expected value is a vector of spec/95_test_vectors.md (V-…) or a table or example of the rule
named; the last section gives, for each statement with hypotheses, a state and operands that meet them. -/

set_option Elab.async false

namespace Sys2Proof.Tests

open Sys2Proof.Machine

/-- `n` bytes as the spec prints them: hexadecimal, the first byte first. -/
def hex (n w : Nat) : List Byte := (leBytes n w).reverse

/-- The keys key16, key24, key32 of 95_test_vectors.md: byte `i` is `i`. -/
def testKey (n : Nat) : List Byte := (List.range n).map (BitVec.ofNat 8)

/-- The state after `NEWKEY` of a test key. -/
def keyed (n : Nat) : State := install (testKey n) State.reset

/-- The response bytes an outcome sent from a state with an empty response stream. -/
def sent : Host.Outcome State Fault Refusal → Option (List Byte)
  | .next s => some s.rspOut
  | .fault _ => none
  | .refused _ => none

/-- `sent` with the command bytes left. -/
def sentAndLeft : Host.Outcome State Fault Refusal → Option (List Byte × List Byte)
  | .next s => some (s.rspOut, s.cmdIn)
  | .fault _ => none
  | .refused _ => none

/-- The registers of 10_state.md R10 after an outcome. -/
def regs : Host.Outcome State Fault Refusal → Option (Bool × List Byte × Nat × Nat × Nat)
  | .next s => some (s.live, s.key.toList, s.bs.toNat, s.encCnt.toNat, s.decCnt.toNat)
  | .fault _ => none
  | .refused _ => none

/-! ### Decoding and encoding -/

/-- V-K2. -/
theorem test_decode_newsz :
    decode [0x01, 0x02, 0x00, 0x00, 0x00, 0xc0, 0x00] = .command (.newsz [0xc0, 0x00]) [] := by decide

/-- V-K18: the length field, not the stream, says where the packet ends. -/
theorem test_decode_newkey :
    decode [0x02, 0x08, 0, 0, 0, 0, 0, 0, 0, 0, 0, 0, 0, 0x07, 0x00] =
      .command (.newkey (List.replicate 8 0)) [0x07, 0x00] := by decide

/-- PRG1 step 2. -/
theorem test_decode_enc :
    decode [0x03, 0x03, 0x00, 0x00, 0x00, 0x61, 0x62, 0x63] = .command (.enc [0x61, 0x62, 0x63]) [] := by
  decide

/-- 30_encoding.md R51: `len` is little-endian, so `00 01` is 256 and the packet is not whole yet. -/
theorem test_decode_dec_lenOrder :
    decode [0x04, 0x00, 0x01, 0x00, 0x00, 0xaa] = .truncated ∧
      decode [0x04, 0x01, 0x00, 0x00, 0x00, 0xaa] = .command (.dec [0xaa]) [] := by decide

/-- V-K25, V-K30. -/
theorem test_decode_dispose :
    decode [0x05, 0, 0, 0, 0] = .command (.dispose []) [] ∧
      decode [0x05, 1, 0, 0, 0, 0] = .command (.dispose [0]) [] := by decide

/-- V-X8, V-X5. -/
theorem test_decode_counters :
    decode [0x06, 0, 0, 0, 0] = .command (.rdenc []) [] ∧
      decode [0x07, 2, 0, 0, 0, 0, 0] = .command (.rddec [0, 0]) [] := by decide

/-- V-X1, V-X2, V-X3: illegal opcodes, taken whole. -/
theorem test_decode_illegal :
    decode [0x00, 0, 0, 0, 0] = .illegal 0x00 [] ∧ decode [0x08, 0, 0, 0, 0] = .illegal 0x08 [] ∧
      decode [0xff, 3, 0, 0, 0, 1, 2, 3] = .illegal 0xff [] := by decide

/-- V-K3, V-K14's header, PRG1 step 4. -/
theorem test_encode :
    encode (.newsz [0x00, 0x01]) = [0x01, 0x02, 0x00, 0x00, 0x00, 0x00, 0x01] ∧
      (encode (.newkey (testKey 16))).take 6 = [0x02, 0x10, 0x00, 0x00, 0x00, 0x00] ∧
      encode (.enc []) = [0x03, 0x00, 0x00, 0x00, 0x00] := by decide

/-- The opcode table's rows, read as words, are their commands (opcode_table.json). -/
theorem test_decodeTableWord :
    decodeTableWord 40 0x01 = some (.newsz []) ∧ decodeTableWord 40 0x02 = some (.newkey []) ∧
      decodeTableWord 40 0x03 = some (.enc []) ∧ decodeTableWord 8 0x04 = some (.dec []) ∧
      decodeTableWord 8 0x05 = some (.dispose []) ∧ decodeTableWord 40 0x06 = some (.rdenc []) ∧
      decodeTableWord 40 0x07 = some (.rddec []) ∧ decodeTableWord 40 0x08 = none ∧
      decodeTableWord 56 0x00800000000201 = some (.newsz [0x80, 0x00]) := by decide

/-- A payload longer than `len` can say is refused by the well-formedness check (30_encoding.md R53). -/
theorem test_illFormed_payload : (Instr.newkey (List.replicate (2 ^ 32) 0)).wellFormed = false := by
  rw [Instr.wellFormed, Instr.payload, List.length_replicate, decide_eq_false_iff_not]
  exact Nat.lt_irrefl _

/-- The table of offending lengths (30_encoding.md R61), one ill-formed term for each check. -/
theorem test_illFormed_lengths (m : Nat) :
    (Instr.newsz [0x80]).lenAllowed m = false ∧ (Instr.newsz [0x80, 0, 0]).lenAllowed m = false ∧
      (Instr.enc (List.replicate (m + 1) 0)).lenAllowed m = false ∧
      (Instr.dispose [0]).lenAllowed m = false ∧ (Instr.rdenc [0]).lenAllowed m = false ∧
      (Instr.rddec [0, 0]).lenAllowed m = false := by
  simp [Instr.lenAllowed]

/-- And one allowed term for each command. -/
theorem test_wellFormed_lengths (m : Nat) :
    (Instr.newsz [0x80, 0]).lenAllowed m = true ∧ (Instr.newkey []).lenAllowed m = true ∧
      (Instr.enc (List.replicate m 0)).lenAllowed m = true ∧ (Instr.dec [1]).lenAllowed m = true ∧
      (Instr.dispose []).lenAllowed m = true ∧ (Instr.rdenc []).lenAllowed m = true ∧
      (Instr.rddec []).lenAllowed m = true := by
  simp [Instr.lenAllowed]

/-- 30_encoding.md R64: two lines of PRG1 and PRG3 and a line that is none. -/
theorem test_assemble :
    assembledPacket "ENC 616263 ; abc".toList = some [0x03, 3, 0, 0, 0, 0x61, 0x62, 0x63] ∧
      assembledPacket "NEWSZ   100".toList = some [0x01, 2, 0, 0, 0, 0x64, 0x00] ∧
      assemble "rdenc".toList = none := by
  decide +kernel

/-! ### Construction and disposal -/

/-- V-K1: NEWSZ 128 with the draw a0 a1 …, and what the draw leaves. -/
theorem test_newsz_installs :
    regs (exec (.newsz [0x80, 0x00]) { State.reset with entropyIn := hex 17 0xa0a1a2a3a4a5a6a7a8a9aaabacadaeaf77 }) =
      some (true, hex 16 0xa0a1a2a3a4a5a6a7a8a9aaabacadaeaf ++ List.replicate 16 0, 16, 0, 0) := by
  decide +kernel

/-- V-K11 and V-K13: an unsupported size, and a wrong operand width whatever the bytes. -/
theorem test_newsz_errors :
    sent (exec (.newsz [0xff, 0xff]) State.reset) = some [0x01, 0, 0, 0, 0] ∧
      sent (exec (.newsz [0x80, 0x00, 0x00]) State.reset) = some [0x81, 0, 0, 0, 0] := by
  decide +kernel

/-- V-K29: NEWKEY over a live context replaces it and zeroes the counters. -/
theorem test_newkey_replaces :
    regs (exec (.newkey (testKey 32)) { keyed 16 with encCnt := 1 }) = some (true, testKey 32, 32, 0, 0) := by
  decide +kernel

/-- V-K28: NEWKEY with five bytes changes nothing. -/
theorem test_newkey_error :
    (regs (exec (.newkey [0, 0, 0, 0, 0]) { keyed 16 with encCnt := 1 }) =
        some (true, testKey 16 ++ List.replicate 16 0, 16, 1, 0)) ∧
      sent (exec (.newkey [0, 0, 0, 0, 0]) { keyed 16 with encCnt := 1 }) = some [0x01, 0, 0, 0, 0] := by
  decide +kernel

/-- V-K26: DISPOSE keeps BS and the counters. -/
theorem test_dispose_wipes :
    regs (exec (.dispose []) { keyed 16 with encCnt := 2, decCnt := 1 }) =
      some (false, List.replicate 32 0, 16, 2, 1) := by
  decide +kernel

/-- V-K30. -/
theorem test_dispose_error : sent (exec (.dispose [0]) State.reset) = some [0x81, 0, 0, 0, 0] := by
  decide +kernel

/-! ### ENC and DEC, under the two configurations the vectors are given for -/

/-- V-E2/16, XORTEST. -/
theorem test_enc_xor :
    sent (encWith xorTestConfig [0x61, 0x62, 0x63] (keyed 16)) =
      some ([0x00, 0x10, 0, 0, 0] ++ hex 16 0x08c343273164646408090a0b0c0d0e0f) := by
  decide +kernel

/-- V-E4/24, RIJNDAEL: `L = BS − 4`, the largest padding and a second block. -/
theorem test_enc_rijndael :
    sent (encWith rijndaelConfig (hex 20 0xa0a1a2a3a4a5a6a7a8a9aaabacadaeafb0b1b2b3) (keyed 24)) =
      some ([0x00, 0x30, 0, 0, 0] ++
        hex 48 0xa0374a2b15e8b0f0af810076b7c7eefe2978b5ae642e66c4d36f4b474345726ea7c9700c2b9e12f2cc3cecec7bcdeedf) := by
  decide +kernel

/-- V-X6: ENC with no context, in the engine itself. -/
theorem test_enc_noContext : sent (exec (.enc []) State.reset) = some [0x80, 0, 0, 0, 0] := by
  rw [show exec (.enc []) State.reset = _ from
    encWith_dead (cfg := engine) (p := []) (s := State.reset) (Nat.zero_le _) rfl]
  decide

/-- V-D10, RIJNDAEL: `P = 20 ≥ BS` is accepted when the checksum matches. -/
theorem test_dec_largePadding :
    sent (decWith rijndaelConfig
        (hex 32 0x3ee3032fbe8bb17f7d15e5c486bcbf49c6a13b37878f5b826f4f8162a1c8d879) (keyed 16)) =
      some [0x00, 0x07, 0, 0, 0, 0x70, 0x61, 0x79, 0x6c, 0x6f, 0x61, 0x64] := by
  decide +kernel

/-- V-D6, V-D8, V-D4, XORTEST: the three errors, each counted. -/
theorem test_dec_errors :
    sent (decWith xorTestConfig (hex 16 0x0c0102030405060708090a0b0c0d0e0f) (keyed 16)) = some [0x03, 0, 0, 0, 0] ∧
      sent (decWith xorTestConfig (hex 16 0x0b0002030405060708090a0b0c0d0e0f) (keyed 16)) =
        some [0x04, 0, 0, 0, 0] ∧
      sent (decWith xorTestConfig (List.replicate 17 0) (keyed 16)) = some [0x02, 0, 0, 0, 0] ∧
      (regs (decWith xorTestConfig (List.replicate 17 0) (keyed 16))).map (fun r => r.2.2.2.2) = some 1 := by
  decide +kernel

/-- V-D11, XORTEST: filler bytes of any value. -/
theorem test_dec_filler :
    sent (decWith xorTestConfig (hex 16 0x08c3432731646464f7f6f5f4f3f2f1f0) (keyed 16)) =
      some [0x00, 0x03, 0, 0, 0, 0x61, 0x62, 0x63] := by
  decide +kernel

/-- 41_encrypt.md R101's table, column by column, and 95_test_vectors.md section 2.2's last row. -/
theorem test_padLen :
    (List.map (fun L => padLen L 16) [0, 1, 10, 11, 12, 15, 16, 27, 28] = [11, 10, 1, 0, 15, 12, 11, 0, 15]) ∧
      (List.map (fun L => padLen L 24) [0, 1, 18, 19, 20, 23, 24, 43, 44] = [19, 18, 1, 0, 23, 20, 19, 0, 23]) ∧
      (List.map (fun L => padLen L 32) [0, 1, 26, 27, 28, 31, 32, 59, 60] = [27, 26, 1, 0, 31, 28, 27, 0, 31]) ∧
      List.map (frameLen 4294967259) [16, 24, 32] = [4294967264, 4294967280, 4294967264] := by
  decide

/-- V-E2/16's frame, whatever the buffer held before. -/
theorem test_pack :
    pack 8 0x352441C2#32 [0x61, 0x62, 0x63] (freshBuffer 16) =
      some (hex 16 0x08c24124356162630000000000000000) := by
  rw [pack_eq _ _ _ _ (by simp)]
  decide

/-! ### Counters -/

/-- 43_counters.md R143's example. -/
theorem test_rdenc : sent (exec (.rdenc []) { State.reset with encCnt := 0x0102 }) =
    some [0x00, 0x02, 0, 0, 0, 0x02, 0x01] := by decide +kernel

/-- V-X4. -/
theorem test_rdenc_error : sent (exec (.rdenc [0]) State.reset) = some [0x81, 0, 0, 0, 0] := by decide +kernel

/-- PRG2 step 6. -/
theorem test_rddec : sent (exec (.rddec []) { keyed 24 with decCnt := 4 }) =
    some [0x00, 0x02, 0, 0, 0, 0x04, 0x00] := by decide +kernel

/-- V-X5. -/
theorem test_rddec_error : sent (exec (.rddec [0, 0]) State.reset) = some [0x81, 0, 0, 0, 0] := by
  decide +kernel

/-- 95_test_vectors.md section 2.3. -/
theorem test_inc16 :
    inc16 0x0000 = 0x0001 ∧ inc16 0x00FF = 0x0100 ∧ inc16 0x7FFF = 0x8000 ∧ inc16 0xFFFE = 0xFFFF ∧
      inc16 0xFFFF = 0x0000 := by decide

/-! ### The primitives -/

/-- 44_checksum.md R153. -/
theorem test_crc32 :
    crc32 [0x61] = 0xE8B7BE43#32 ∧ crc32 [0x61, 0x62, 0x63] = 0x352441C2#32 ∧
      crc32 (hex 11 0x68656c6c6f20776f726c64) = 0x0D4A1185#32 := by
  decide +kernel

/-- 45_block_cipher.md R169, R171: named S-box entries and check words of the key expansion. -/
theorem test_rijndael_parts :
    sbox 0x53 = 0xed ∧ invSbox 0x63 = 0x00 ∧ rcon 15 = 0x9a ∧
      (expandKey .b16 (testKey 16)).getD 4 [] = [0xd6, 0xaa, 0x74, 0xfd] ∧
      (expandKey .b16 (testKey 16)).getD 43 [] = [0x4d, 0x2b, 0x30, 0xc5] ∧
      (expandKey .b24 (testKey 24)).getD 77 [] = [0x64, 0xae, 0xf4, 0xea] ∧
      (expandKey .b32 (testKey 32)).getD 119 [] = [0x5d, 0xd0, 0x22, 0x76] := by
  decide +kernel

/-- 45_block_cipher.md R177, FIPS-197 C.1. -/
theorem test_rijndael_fips :
    rijndaelEncBytes .b16 (testKey 16) (hex 16 0x00112233445566778899aabbccddeeff) =
      hex 16 0x69c4e0d86a7b0430d8cdb78070b4c55a := by
  decide +kernel

/-- 45_block_cipher.md R178, the published 24-byte vector. -/
theorem test_rijndael_192 :
    rijndaelEncBytes .b24 (hex 24 0x2b7e151628aed2a6abf7158809cf4f3c762e7160f38b4da5)
        (hex 24 0x3243f6a8885a308d313198a2e03707344a4093822299f31d) =
      hex 24 0x725ae43b5f3161de806a7c93e0bca93c967ec1ae1b71e1cf := by
  decide +kernel

/-- 45_block_cipher.md R178, the published 32-byte vector. -/
theorem test_rijndael_256 :
    rijndaelEncBytes .b32 (hex 32 0x2b7e151628aed2a6abf7158809cf4f3c762e7160f38b4da56a784d9045190cfe)
        (hex 32 0x3243f6a8885a308d313198a2e03707344a4093822299f31d0082efa98ec4e6c8) =
      hex 32 0xa49406115dfb30a40418aafa4869b7c6a886ff31602a7dd19c889dc64f7e4e7a := by
  decide +kernel

/-! ### Steps -/

/-- V-X3: all eight bytes are consumed, the next packet stays. -/
theorem test_step_illegal :
    sentAndLeft (step { State.reset with cmdIn := [0xff, 3, 0, 0, 0, 1, 2, 3, 0x06] }) =
      some ([0x81, 0, 0, 0, 0], [0x06]) := by
  decide +kernel

/-- 30_encoding.md R63: a truncated packet waits. -/
theorem test_step_waits :
    sentAndLeft (step { State.reset with cmdIn := [0x02, 0x10, 0, 0, 0, 0xaa] }) =
      some ([], [0x02, 0x10, 0, 0, 0, 0xaa]) := by
  decide +kernel

/-- 70_reset_and_hazards.md R231: a reset abandons the packet being received. -/
theorem test_step_reset :
    (regs (step { keyed 16 with cmdIn := [0x06, 0, 0], resetIn := [{ after := 0, sent := [0x06, 0, 0, 0, 0] }], decCnt := 7 }) =
        some (false, List.replicate 32 0, 0, 0, 0)) ∧
      sentAndLeft (step { keyed 16 with cmdIn := [0x06, 0, 0], resetIn := [{ after := 0, sent := [0x06, 0, 0, 0, 0] }] }) =
        some ([], [0x06, 0, 0, 0, 0]) := by
  decide +kernel

/-- 70_reset_and_hazards.md R231, R243: of three packets on the stream the first is executed, the reset the
host presents after it comes between the commands, and the other two are never read. -/
theorem test_reset_betweenCommands :
    (step (hostReset 1 (hostSend [7, 0, 0, 0, 0, 5, 0, 0, 0, 0, 6, 0, 0, 0, 0] (keyed 16))) =
      .next { hostReset 0 (hostSend [5, 0, 0, 0, 0, 6, 0, 0, 0, 0] (keyed 16)) with rspOut := [0, 2, 0, 0, 0, 0, 0] }) ∧
      runSteps 2 (hostReset 1 (hostSend [7, 0, 0, 0, 0, 5, 0, 0, 0, 0, 6, 0, 0, 0, 0] (keyed 16))) = .next State.reset :=
  ⟨rfl, rfl⟩

/-- 60_exceptions.md R214: NEWSZ waits for its sixteenth entropy byte. -/
theorem test_step_newszWaits :
    sentAndLeft (step { State.reset with
        cmdIn := [0x01, 2, 0, 0, 0, 0x80, 0x00], entropyIn := List.replicate 15 0x55 }) =
      some ([], [0x01, 2, 0, 0, 0, 0x80, 0x00]) := by
  decide +kernel

/-- The fetch of a table word runs that command as the first after reset (RDDEC answers 0). -/
theorem test_withFetchWord :
    sentAndLeft (step (State.reset.withFetchWord 40 0x07)) = some ([0, 2, 0, 0, 0, 0, 0], []) ∧
      sentAndLeft (step (State.reset.withFetchWord 40 0x01)) = some ([0x81, 0, 0, 0, 0], []) := by
  decide +kernel

/-- The kernel runs ENC's fetch word from reset although MAX_PT is open. -/
theorem test_withFetchWord_enc :
    sentAndLeft (step (State.reset.withFetchWord 40 0x03)) = some ([0x80, 0, 0, 0, 0], []) := by
  decide +kernel

/-! ### Witnesses: for each statement with hypotheses, what meets them -/

theorem test_witness_DecodeOfEncode :
    (Instr.newkey (testKey 32)).wellFormed = true ∧ (Instr.enc []).wellFormed = true := by decide

theorem test_witness_EncodeOfDecode :
    decode [0x07, 2, 0, 0, 0, 0xaa, 0xbb, 0x01] = .command (.rddec [0xaa, 0xbb]) [0x01] := by decide

theorem test_witness_StepRunsDecodedCommand :
    (decode [0x01, 2, 0, 0, 0, 0x80, 0x00, 0x06] = .command (.newsz [0x80, 0x00]) [0x06] ∧
      entropyNeed (.newsz [0x80, 0x00]) = 16) ∧
      decode [0x05, 0, 0, 0, 0] = .command (.dispose []) [] ∧ entropyNeed (.dispose []) = 0 := by decide

/-- No byte, a cut header, a cut payload one byte short; a legal opcode and an illegal one. -/
theorem test_witness_TruncatedPacketWaits :
    (∀ k ∈ [0, 4, 5, 20], k < (commandPacket 0x02 (testKey 16)).length) ∧
      (∀ k ∈ [0, 5, 6], k < (commandPacket 0xff [1, 2]).length) ∧
      (commandPacket 0xff [1, 2]).take 6 = [0xff, 2, 0, 0, 0, 1] ∧
      dueReset [] = none ∧ dueReset [{ after := 1, sent := [] }] = none := by decide

/-- The boundary opcodes 0x00, 0x08, 0xFF, with and without a payload. -/
theorem test_witness_IllegalOpcodeConsumed :
    (∀ op ∈ [(0x00 : Byte), 0x08, 0xff], op = 0 ∨ 8 ≤ op.toNat) ∧
      [0x08, 1, 0, 0, 0, 9, 0x06] = commandPacket 0x08 [9] ++ [0x06] ∧
      [0x00, 0, 0, 0, 0] = commandPacket 0x00 [] ++ [] := by decide

/-- Every row of the table of offending lengths. -/
theorem test_witness_OffendingLengths :
    (∀ i ∈ [Instr.newsz [0x80], .newsz [0x80, 0, 0], .newsz [], .dispose [0], .rdenc [0], .rddec [0],
        .enc (List.replicate (engine.maxPt.val + 1) 0)],
      i.wellFormed = true ∧ i.lenAllowed engine.maxPt.val = false) ∧
      (∀ n ∈ [0, 15, 17, 23, 25, 31, 33], n ≠ 16 ∧ n ≠ 24 ∧ n ≠ 32 ∧ (List.replicate n (0 : Byte)).length = n) ∧
      (keyed 16).live = true ∧ (keyed 16).bs.toNat = BlockSize.b16.bytes ∧
      ∀ c ∈ [[], List.replicate 15 (0 : Byte), List.replicate 17 0], c.length = 0 ∨ c.length % 16 ≠ 0 := by
  have h := engine.maxPt.isLt
  refine ⟨?_, by decide, rfl, by decide, by decide⟩
  simp [Instr.wellFormed, Instr.lenAllowed, Instr.payload]
  omega

theorem test_witness_StreamRunsInOrder :
    (∀ i ∈ [Instr.newsz [0x80, 0x00], .enc [0x61], .rdenc []], i.wellFormed = true) ∧
      ([Instr.newsz [0x80, 0x00], .enc [0x61], .rdenc []].map entropyNeed).sum = 16 ∧
      [0x01, 2, 0, 0, 0, 0x80, 0x00, 0x03, 1, 0, 0, 0, 0x61, 0x06, 0, 0, 0, 0] =
        [Instr.newsz [0x80, 0x00], .enc [0x61], .rdenc []].flatMap encode ++ [] := by decide

theorem test_witness_AssemblyLines :
    ([0x61, 0xff] : List Byte) ≠ [] ∧ hexText [0x61, 0xff] = ['6', '1', 'f', 'f'] ∧
      (∀ d ∈ [6, 5, 5, 3, 5], d < 10) ∧ [6, 5, 5, 3, 5].foldl (fun n d => 10 * n + d) 0 = 65535 ∧
      [6, 5, 5, 3, 6].foldl (fun n d => 10 * n + d) 0 = 65536 := by decide

theorem test_witness_ResponseFormat : (List.replicate 256 (0 : Byte)).length < 2 ^ 32 := by
  rw [List.length_replicate]
  decide

/-- A next state of every command (OneResponsePerCommand, AccessMatrix, CounterWriters). -/
theorem test_witness_next :
    exec (.rdenc []) State.reset = .next { State.reset with rspOut := [0, 2, 0, 0, 0, 0, 0] } ∧
      entropyNeed (.rdenc []) = 0 ∧ ∀ i, ∃ t, exec i (keyed 24) = .next t :=
  ⟨rfl, rfl, fun i => exec_answers i (keyed 24) fun _ => ⟨.b24, by decide⟩⟩

/-- Both clauses of a construction in CounterWriters, and AccessMatrix's NEWSZ with too little entropy. -/
theorem test_witness_CounterWriters :
    exec (.newkey (testKey 16)) State.reset = .next { keyed 16 with rspOut := [] ++ [0x00, 0, 0, 0, 0] } ∧
      exec (.newkey [0]) (keyed 16) = .next { keyed 16 with rspOut := [] ++ [0x01, 0, 0, 0, 0] } ∧
      exec (.newsz [0x80, 0x00]) (keyed 16) = .next (keyed 16) ∧
      (keyed 16).entropyIn.length < entropyNeed (.newsz [0x80, 0x00]) :=
  ⟨rfl, rfl, rfl, by decide⟩

/-- An error of a command that counts nothing, and one of DEC that keeps its count (ErrorsLeaveTheState). -/
theorem test_witness_ErrorsLeaveTheState :
    exec (.dispose [0]) State.reset = .next { State.reset with rspOut := [] ++ [statusCode .illegalCommand, 0, 0, 0, 0] } ∧
      exec (.dec []) (keyed 16) = .next { keyed 16 with
        decCnt := 1, rspOut := [] ++ [statusCode .invalidCiphertextLength, 0, 0, 0, 0] } := by
  exact ⟨rfl, decWith_badLength (cfg := engine) (c := []) (s := keyed 16) (B := .b16) rfl (by decide) (Or.inl rfl)⟩

/-- The three clauses at their boundaries: payloads of 0, 1, 3 bytes; sizes next to a legal one; the
legal ones with a draw of exactly their length and with more behind it. -/
theorem test_witness_NewszConstructs :
    (([] : List Byte).length ≠ 2 ∧ ([0x80] : List Byte).length ≠ 2 ∧ ([0x80, 0, 0] : List Byte).length ≠ 2) ∧
      ∀ b ∈ [(0x7f, 0x00), (0x81, 0x00), (0xbf, 0x00), (0xc1, 0x00), (0xff, 0x00), ((0x01 : Byte), (0x01 : Byte))],
        b.1.toNat + 256 * b.2.toNat ≠ 128 ∧ b.1.toNat + 256 * b.2.toNat ≠ 192 ∧ b.1.toNat + 256 * b.2.toNat ≠ 256 := by
  simp

theorem test_witness_NewszConstructs_draw :
    8 * (testKey 16).length = (0x80 : Byte).toNat + 256 * (0x00 : Byte).toNat ∧
      8 * (testKey 24).length = (0xc0 : Byte).toNat + 256 * (0x00 : Byte).toNat ∧
      8 * (testKey 32).length = (0x00 : Byte).toNat + 256 * (0x01 : Byte).toNat ∧
      ({ State.reset with entropyIn := testKey 17 } : State).entropyIn = testKey 16 ++ [16] := by
  refine ⟨?_, ?_, ?_, rfl⟩ <;> simp [testKey]

theorem test_witness_NewkeyConstructs :
    (∀ n ∈ [16, 24, 32], (testKey n).length = 16 ∨ (testKey n).length = 24 ∨ (testKey n).length = 32) ∧
      ∀ n ∈ [0, 15, 17, 23, 25, 31, 33],
        ¬((testKey n).length = 16 ∨ (testKey n).length = 24 ∨ (testKey n).length = 32) := by decide

theorem test_witness_FailedConstruction :
    exec (.newkey [0]) (keyed 16) = .next { keyed 16 with rspOut := [] ++ [0x01, 0, 0, 0, 0] } ∧
      exec (.newsz [0]) (keyed 16) = .next { keyed 16 with rspOut := [] ++ [0x81, 0, 0, 0, 0] } :=
  ⟨rfl, rfl⟩

/-- One byte short, and nothing answered yet. -/
theorem test_witness_NewszWaits :
    [0x01, 2, 0, 0, 0, 0x80, 0x00, 0x06] = encode (.newsz (leBytes 2 (8 * BlockSize.b16.bytes))) ++ [0x06] ∧
      (testKey 15).length < BlockSize.b16.bytes ∧ (testKey 15 ++ [0xff]).length = BlockSize.b16.bytes ∧
      ([] ++ testKey 32).length = BlockSize.b32.bytes := by decide

theorem test_witness_DisposeWipes : ([0] : List Byte) ≠ [] := by decide

theorem test_witness_DisposeSufficesOnEveryPath :
    ∃ t, execAll [.enc [], .dec []] { keyed 24 with key := keyImage [1] } = .next t := by
  obtain ⟨t, ht, hb⟩ : ∃ t, exec (.enc []) { keyed 24 with key := keyImage [1] } = .next t ∧
      t.bs.toNat = BlockSize.b24.bytes :=
    ⟨_, encWith_live (cfg := engine) (p := []) (s := { keyed 24 with key := keyImage [1] }) (B := .b24)
      (Nat.zero_le _) rfl (by decide), by rw [respond_bs, countEnc_bs]; decide⟩
  obtain ⟨u, hu⟩ := exec_answers (.dec []) t fun _ => ⟨.b24, hb⟩
  exact ⟨u, by simp only [execAll, ht, hu]⟩

theorem test_witness_DisposeLeavesNoKeyTrace :
    ∀ i ∈ [Instr.newkey (testKey 16), .rdenc []], (∀ p, i ≠ .enc p) ∧ ∀ c, i ≠ .dec c := by
  simp

theorem test_witness_PaddingLength : (5 + 11 + 0) % BlockSize.b16.bytes = 0 ∧ (11 + 5) % BlockSize.b16.bytes = 0 := by
  decide

/-- A write that ends at the buffer's last byte succeeds; one byte further it does not. -/
theorem test_witness_FrameBufferAccess :
    memWriteBytes 14 [1, 2] (List.replicate 16 0) = some (List.replicate 14 0 ++ [1, 2]) ∧
      memWriteBytes 15 [1, 2] (List.replicate 16 0) = none ∧ memReadBytes 16 0 (List.replicate 16 0) = some [] ∧
      memReadBytes 16 1 (List.replicate 16 0) = none := by decide

theorem test_witness_PackFillsTheFrame :
    (List.replicate 16 (0xee : Byte)).length = 5 + ([0x61, 0x62, 0x63] : List Byte).length + 8 ∧
      (List.replicate 31 (0xee : Byte)).length = 5 + ([] : List Byte).length + 26 := by decide

theorem test_witness_EcbBlockByBlock :
    (List.replicate 48 (0 : Byte)).length % BlockSize.b24.bytes = 0 ∧ 1 < 48 / BlockSize.b24.bytes ∧
      blockOfList .b24 ((List.replicate 48 (0 : Byte)).drop (0 * 24)) =
        blockOfList .b24 ((List.replicate 48 (0 : Byte)).drop (1 * 24)) := by decide +kernel

/-- The clauses of ENC: longer than MAX_PT by one; no context; live in each size, with an empty payload
and with one of exactly MAX_PT bytes (EncAnswersCiphertext, CiphertextLength, RoundTrip). -/
theorem test_witness_Enc :
    engine.maxPt.val < (List.replicate (engine.maxPt.val + 1) (0 : Byte)).length ∧
      (List.replicate engine.maxPt.val (0 : Byte)).length ≤ engine.maxPt.val ∧
      ([] : List Byte).length ≤ engine.maxPt.val ∧ State.reset.live = false ∧
      ((keyed 16).live = true ∧ (keyed 16).bs.toNat = BlockSize.b16.bytes) ∧
      ((keyed 24).live = true ∧ (keyed 24).bs.toNat = BlockSize.b24.bytes) ∧
      (keyed 32).live = true ∧ (keyed 32).bs.toNat = BlockSize.b32.bytes := by
  refine ⟨?_, ?_, Nat.zero_le _, rfl, ⟨rfl, by decide⟩, ⟨rfl, by decide⟩, rfl, by decide⟩
  · rw [List.length_replicate]; exact Nat.lt_succ_self _
  · rw [List.length_replicate]

/-- Two states with the same key and a different history. -/
theorem test_witness_AnswersDepend :
    (keyed 16).key.toList.take BlockSize.b16.bytes =
      ({ keyed 16 with encCnt := 7, cmdIn := [1], rspOut := [2] } : State).key.toList.take BlockSize.b16.bytes := rfl

/-- The ciphertext, under the open cipher, of a frame of the tests' choice: DEC's buffer is that frame. -/
def cipherOf (fb : List Byte) : List Byte :=
  ecbEnc engine .b16 (blockOfList .b16 ((keyed 16).key.toList.take BlockSize.b16.bytes)) fb

/-- One 16-byte frame with padding length `P`, checksum `chk` and 11 bytes after the header. -/
def frame16 (P : Nat) (chk : BitVec 32) : List Byte :=
  frameBytes P chk [] (List.replicate 11 0x00)

theorem ecbDec_cipherOf (P : Nat) (chk : BitVec 32) :
    frame16 P chk =
      ecbDec engine .b16 (blockOfList .b16 ((keyed 16).key.toList.take BlockSize.b16.bytes)) (cipherOf (frame16 P chk)) ∧
      (cipherOf (frame16 P chk)).length = 16 := by
  have h : (frame16 P chk).length = 16 := by simp [frame16]
  have hm : (frame16 P chk).length % BlockSize.b16.bytes = 0 := by rw [h]; rfl
  exact ⟨(ecbDec_ecbEnc engine engine_inverse _ _ _ hm).symm, by rw [cipherOf, ecbEnc_length _ _ _ _ hm, h]⟩

/-- DEC's clauses on a live context: a bad length; then for whole blocks (`ecbDec_cipherOf`) `P = 12` and
`P = 255`, one past the room and the largest; `P = 11`, the largest with room, with a wrong checksum and
with the right one. -/
theorem test_witness_DecAnswers (chk : BitVec 32) :
    State.reset.live = false ∧ (([] : List Byte).length = 0 ∧ (List.replicate 17 (0 : Byte)).length % 16 ≠ 0) ∧
      5 + ((frame16 12 chk).getD 0 0).toNat > (frame16 12 chk).length ∧
      5 + ((frame16 255 chk).getD 0 0).toNat > (frame16 255 chk).length ∧
      ¬5 + ((frame16 11 chk).getD 0 0).toNat > (frame16 11 chk).length ∧
      (engine.hash32 []).toNat ≠ fromLe (((frame16 11 (engine.hash32 [] + 1)).drop 1).take 4) ∧
      (engine.hash32 []).toNat = fromLe (((frame16 11 (engine.hash32 [])).drop 1).take 4) := by
  have hc : ∀ c : BitVec 32, fromLe (((frame16 11 c).drop 1).take 4) = c.toNat := by
    intro c
    have : ((frame16 11 c).drop 1).take 4 = leBytes 4 c.toNat := by
      simp [frame16, frameBytes, leBytes]
    rw [this, fromLe_leBytes 4 _ c.isLt]
  have hl : ∀ P, (frame16 P chk).length = 16 := by intro P; simp [frame16]
  have hp : ∀ P, (frame16 P chk).getD 0 0 = BitVec.ofNat 8 P := by
    intro P; simp [frame16, frameBytes, leBytes]
  rw [hc, hc]
  refine ⟨rfl, by decide, ?_, ?_, ?_, ?_, rfl⟩
  · rw [hl, hp]; decide
  · rw [hl, hp]; decide
  · rw [hl, hp]; decide
  · generalize engine.hash32 [] = h
    intro e
    have := BitVec.eq_of_toNat_eq e
    have h1 : h + 0#32 = h + 1 := by rw [BitVec.add_zero]; exact this
    exact absurd (add_left_cancel h1) (by decide)

/-- No filler and the most there can be. -/
theorem test_witness_DecAcceptsAnyFiller :
    (([] : List Byte).length < 256 ∧ (5 + (testKey 11).length + ([] : List Byte).length) % BlockSize.b16.bytes = 0) ∧
      (List.replicate 255 (0xaa : Byte)).length < 256 ∧
      (5 + (testKey 12).length + (List.replicate 255 (0xaa : Byte)).length) % BlockSize.b16.bytes = 0 := by
  decide +kernel

theorem test_witness_counterReads : ([0] : List Byte) ≠ [] ∧ ([0, 0] : List Byte) ≠ [] := by decide

theorem test_witness_CountersCountCalls :
    (∀ i ∈ [Instr.enc [], .dec [], .rdenc [], .rddec [0]], keepsContext i = true) ∧ (keyed 24).live = true ∧
      (keyed 24).bs.toNat = BlockSize.b24.bytes := by decide

/-- A reset due before whole packets, and one that is not due yet. -/
theorem test_witness_ResetIsAStep :
    ({ keyed 16 with cmdIn := [7, 0, 0, 0, 0], resetIn := [{ after := 0, sent := [6] }] } : State).resetIn =
        { after := 0, sent := [6] } :: [] ∧
      ∀ sent later, [({ after := 1, sent := [6] } : ResetRequest)] ≠ { after := 0, sent := sent } :: later := by
  refine ⟨rfl, by simp⟩

/-- One command, then the reset, with a whole packet and a cut one unread behind it. -/
theorem test_witness_ResetBetweenCommands :
    Inv { keyed 16 with cmdIn := [7, 0, 0, 0, 0, 5, 0, 0, 0, 0, 6], resetIn := [{ after := 1, sent := [6] }] } ∧
      [7, 0, 0, 0, 0, 5, 0, 0, 0, 0, 6] = [Instr.rddec []].flatMap encode ++ [5, 0, 0, 0, 0, 6] ∧
      ([Instr.rddec []].map entropyNeed).sum = 0 ∧ (Instr.rddec []).wellFormed = true ∧ [Instr.rddec []].length = 1 := by
  refine ⟨⟨by decide, by decide, by decide, by decide, by decide⟩, by decide, by decide, by decide, rfl⟩

/-- The invariants hold of a live state with counts, and its step answers (StepKeepsInvariant,
StepNeverStops). -/
theorem test_witness_Inv :
    Inv { keyed 16 with encCnt := 3, cmdIn := [0x07, 0, 0, 0, 0] } ∧
      (sent (step { keyed 16 with encCnt := 3, cmdIn := [0x07, 0, 0, 0, 0] })).isSome = true := by
  refine ⟨⟨by decide, by decide, by decide, by decide, by decide⟩, by decide +kernel⟩

theorem test_witness_ResponsesWhole :
    ResponsesWhole { keyed 16 with rspOut := [0x00, 1, 0, 0, 0, 9, 0x80, 0, 0, 0, 0] } :=
  ⟨[(.ok, [9]), (.noContext, [])], by simp [legalResponse], by decide⟩

/-- The premises and the step of PacketsAreAnswered. -/
theorem test_witness_PacketsAreAnswered :
    decode [0x07, 0, 0, 0, 0, 0x06] = .command (.rddec []) [0x06] ∧
      step { State.reset with cmdIn := [0x07, 0, 0, 0, 0, 0x06] } =
        .next { State.reset with cmdIn := [0x06], rspOut := [0, 2, 0, 0, 0, 0, 0] } :=
  ⟨rfl, rfl⟩

/-- Two states that differ in the key, the block size and LIVE only. -/
theorem test_witness_KeyIsNotAnswered :
    ((∀ p, Instr.dispose [] ≠ .enc p) ∧ ∀ c, Instr.dispose [] ≠ .dec c) ∧ (keyed 32).encCnt = State.reset.encCnt ∧
      (keyed 32).decCnt = State.reset.decCnt ∧ (keyed 32).entropyIn = State.reset.entropyIn ∧ keyed 32 ≠ State.reset := by
  refine ⟨by simp, rfl, rfl, rfl, by decide +kernel⟩

theorem test_witness_CrcIsLinear :
    ([0x61, 0x62] : List Byte).length = ([0, 0xff] : List Byte).length ∧
      ([0, 0xff] : List Byte).length = ([7, 7] : List Byte).length := by decide

end Sys2Proof.Tests
end

namespace Sys2Proof.Proofs

open Sys2Proof.Machine

/-- Settles O4: with no reset due the step serves the stream once the reset input has counted down, and
the countdown touches neither the command stream nor the entropy queue, so the command decoded from `s` is
the one that is served. -/
theorem stepRunsDecodedCommand : Obligations.StepRunsDecodedCommand := by
  intro s i rest hdec hent hreset
  have hdec' : decode (elapse s).cmdIn = .command i rest := by rwa [elapse_cmdIn]
  have hent' : entropyNeed i ≤ (elapse s).entropyIn.length := by rwa [elapse_entropyIn]
  calc step s
      = serve (elapse s) := step_of_noReset hreset
    _ = exec i (consume rest (elapse s)) := serve_of_command hdec' hent'

end Sys2Proof.Proofs

namespace Sys2Proof.Proofs

open Sys2Proof.Machine

/-! ### The operations and the invariants of 10_state.md R21

`Inv` speaks of the five registers only, so an operation on the streams keeps it at once; counting, installing
and wiping each need one fact of their own. -/

theorem inv_reset : Inv State.reset :=
  ⟨by decide, by decide, by decide, by decide, by decide⟩

/-- The streams are no part of the invariants. -/
theorem inv_of_registers {s t : State} (h : Inv s) (hlive : t.live = s.live) (hkey : t.key = s.key)
    (hbs : t.bs = s.bs) (henc : t.encCnt = s.encCnt) (hdec : t.decCnt = s.decCnt) : Inv t := by
  obtain ⟨liveSize, keyTail, deadKey, sizeLegal, sizeZero⟩ := h
  constructor <;> simpa only [hlive, hkey, hbs, henc, hdec]

theorem inv_respond {s : State} (h : Inv s) (st : Status) (payload : List Byte) : Inv (respond st payload s) :=
  inv_of_registers h rfl rfl rfl rfl rfl

theorem inv_raise {s : State} (h : Inv s) (e : Status) : Inv (raise e s) :=
  inv_respond h e []

theorem inv_consume {s : State} (h : Inv s) (rest : List Byte) : Inv (consume rest s) :=
  inv_of_registers h rfl rfl rfl rfl rfl

theorem inv_elapse {s : State} (h : Inv s) : Inv (elapse s) :=
  inv_of_registers h rfl rfl rfl rfl rfl

theorem inv_resetEvent (sent : List Byte) (later : List ResetRequest) (s : State) :
    Inv (resetEvent sent later s) :=
  inv_of_registers inv_reset rfl rfl rfl rfl rfl

/-- In a live context the block size is not 0, so R21 (d) leaves the counters free there. -/
theorem inv_of_live {s t : State} (h : Inv s) (hsLive : s.live = true) (hlive : t.live = s.live)
    (hkey : t.key = s.key) (hbs : t.bs = s.bs) : Inv t := by
  obtain ⟨liveSize, keyTail, deadKey, sizeLegal, -⟩ := h
  have hsize := liveSize hsLive
  constructor
  case sizeZero => intro hzero; rw [hbs] at hzero; omega
  all_goals simpa only [hlive, hkey, hbs]

theorem inv_countEnc {s : State} (h : Inv s) (hlive : s.live = true) : Inv (countEnc s) :=
  inv_of_live h hlive rfl rfl rfl

theorem inv_countDec {s : State} (h : Inv s) (hlive : s.live = true) : Inv (countDec s) :=
  inv_of_live h hlive rfl rfl rfl

/-- The image of a key is zero behind the key (40_construction.md R82). -/
theorem drop_keyImage (k : List Byte) :
    (keyImage k).toList.drop k.length = List.replicate (32 - k.length) 0 := by
  apply List.ext_getElem
  · simp
  · intro i _ _
    simp [keyImage]

/-- The `BS` register is wide enough for every block size. -/
theorem install_bs_toNat {k : List Byte} {B : BlockSize} (hk : k.length = B.bytes) (s : State) :
    (install k s).bs.toNat = k.length := by
  have := bytes_pos B
  rw [install_bs, BitVec.toNat_ofNat]
  omega

/-- A key of a supported length sets up the invariants in whatever state it is installed. -/
theorem inv_install {k : List Byte} {B : BlockSize} (hk : k.length = B.bytes) (s : State) :
    Inv (install k s) := by
  have hbs := install_bs_toNat hk s
  have hsize : k.length = 16 ∨ k.length = 24 ∨ k.length = 32 := by
    rw [hk]; cases B <;> decide
  exact {
    liveSize := fun _ => by rwa [hbs]
    keyTail := by rw [hbs]; exact drop_keyImage k
    deadKey := fun hdead => by simp at hdead
    sizeLegal := by rw [hbs]; exact .inr hsize
    sizeZero := fun hzero => by omega }

theorem inv_wipe {s : State} (h : Inv s) : Inv (wipe s) where
  liveSize := fun hlive => by simp at hlive
  keyTail := by rw [wipe_key, wipe_bs, Vector.toList_replicate, List.drop_replicate]
  deadKey := fun _ => rfl
  sizeLegal := h.sizeLegal
  sizeZero := fun hbs =>
    have ⟨_, henc, hdec⟩ := h.sizeZero hbs
    ⟨rfl, henc, hdec⟩

/-! ### Commands and steps keep the invariants -/

theorem inv_of_effect {i : Instr} {st : Status} {s s' : State} (h : Inv s) (heff : Effect st s s' i) :
    Inv s' := by
  cases i with
  | newsz p =>
    obtain ⟨-, rfl⟩ | ⟨-, rfl⟩ | ⟨-, B, hB, rfl⟩ := heff
    · exact h
    · exact h
    · exact inv_install (B := B) (by simpa using hB) _
  | newkey k =>
    obtain ⟨-, rfl⟩ | ⟨-, ⟨B, hB⟩, rfl⟩ := heff
    · exact h
    · exact inv_install hB s
  | enc p =>
    obtain ⟨-, rfl⟩ | ⟨-, rfl, -⟩ | ⟨-, hlive, rfl⟩ := heff
    · exact h
    · exact h
    · exact inv_countEnc h hlive
  | dec c =>
    obtain ⟨-, rfl, -⟩ | ⟨-, hlive, rfl⟩ := heff
    · exact h
    · exact inv_countDec h hlive
  | dispose p =>
    obtain ⟨-, rfl⟩ | ⟨-, rfl⟩ := heff
    · exact h
    · exact inv_wipe h
  | rdenc p => obtain ⟨-, rfl⟩ := heff; exact h
  | rddec p => obtain ⟨-, rfl⟩ := heff; exact h

theorem exec_keeps_inv {i : Instr} {s t : State} (h : Inv s) (hexec : exec i s = .next t) : Inv t := by
  obtain ⟨rfl, -⟩ | ⟨st, payload, s', rfl, -, -, heff⟩ := exec_next hexec
  · exact h
  · exact inv_respond (inv_of_effect h heff) st payload

theorem serve_keeps_inv {s t : State} (h : Inv s) (hserve : serve s = .next t) : Inv t := by
  obtain rfl | ⟨rest, rfl⟩ | ⟨i, rest, -, -, hexec⟩ := serve_next hserve
  · exact h
  · exact inv_raise (inv_consume h rest) _
  · exact exec_keeps_inv (inv_consume h rest) hexec

/-- Settles O40: a step is a reset, which sets the invariants up afresh, or serves the stream, which keeps
them command by command. -/
theorem stepKeepsInvariant : Obligations.StepKeepsInvariant := by
  intro s t h hstep
  obtain ⟨sent, later, -, rfl⟩ | ⟨-, hserve⟩ := step_next hstep
  · exact inv_resetEvent sent later s
  · exact serve_keeps_inv (inv_elapse h) hserve

/-! ### The commands case by case

One equation per branch of the commands that need no cipher. -/

/-- A NEWSZ whose draw has not arrived changes nothing (60_exceptions.md R214); no other command draws. -/
theorem exec_of_noEntropy {i : Instr} {s : State} (he : s.entropyIn.length < entropyNeed i) :
    exec i s = .next s := by
  cases i with
  | newsz p =>
    by_cases hp : p.length = 2
    · cases hB : blockSizeOfBits (newszBits p) with
      | none => simp [entropyNeed, hp, hB] at he
      | some B =>
        have he' : s.entropyIn.length < B.bytes := by simpa [entropyNeed, hp, hB] using he
        simp [exec, execNewsz, hp, hB, draw_none B.bytes s he']
    · simp [entropyNeed, hp] at he
  | _ => simp [entropyNeed] at he

theorem exec_newsz_of_badLength {p : List Byte} (hp : p.length ≠ 2) (s : State) :
    exec (.newsz p) s = .next (raise .illegalCommand s) :=
  if_pos hp

theorem exec_newsz_of_badSize {p : List Byte} (hp : p.length = 2) (hB : blockSizeOfBits (newszBits p) = none)
    (s : State) : exec (.newsz p) s = .next (raise .invalidKeySize s) := by
  simp [exec, execNewsz, hp, hB]

theorem exec_newsz_of_draw {p : List Byte} {B : BlockSize} (hp : p.length = 2)
    (hB : blockSizeOfBits (newszBits p) = some B) {s : State} (he : B.bytes ≤ s.entropyIn.length) :
    exec (.newsz p) s = .next (respond .ok [] (install (s.entropyIn.take B.bytes)
      { s with entropyIn := s.entropyIn.drop B.bytes })) := by
  simp [exec, execNewsz, hp, hB, draw_eq B.bytes s he]

theorem entropyNeed_newsz {p : List Byte} {B : BlockSize} (hp : p.length = 2)
    (hB : blockSizeOfBits (newszBits p) = some B) : entropyNeed (.newsz p) = B.bytes := by
  simp [entropyNeed, hp, hB]

theorem exec_newkey_of_badLength {k : List Byte} (hk : blockSizeOfLen k.length = none) (s : State) :
    exec (.newkey k) s = .next (raise .invalidKeySize s) := by
  simp [exec, execNewkey, hk]

theorem exec_newkey_of_goodLength {k : List Byte} {B : BlockSize} (hk : blockSizeOfLen k.length = some B)
    (s : State) : exec (.newkey k) s = .next (respond .ok [] (install k s)) := by
  simp [exec, execNewkey, hk]

theorem exec_dispose_of_badLength {p : List Byte} (hp : p.length ≠ 0) (s : State) :
    exec (.dispose p) s = .next (raise .illegalCommand s) :=
  if_pos hp

theorem exec_dispose_nil (s : State) : exec (.dispose []) s = .next (respond .ok [] (wipe s)) :=
  rfl

theorem exec_rdenc_of_badLength {p : List Byte} (hp : p.length ≠ 0) (s : State) :
    exec (.rdenc p) s = .next (raise .illegalCommand s) :=
  if_pos hp

theorem exec_rdenc_nil (s : State) :
    exec (.rdenc []) s = .next (respond .ok (leBytes 2 s.encCnt.toNat) s) :=
  rfl

theorem exec_rddec_of_badLength {p : List Byte} (hp : p.length ≠ 0) (s : State) :
    exec (.rddec p) s = .next (raise .illegalCommand s) :=
  if_pos hp

theorem exec_rddec_nil (s : State) :
    exec (.rddec []) s = .next (respond .ok (leBytes 2 s.decCnt.toNat) s) :=
  rfl

/-! ### The access matrix (10_state.md R23) -/

/-- No command writes the command stream or the reset input: executing it with those two fields put back as
they were gives the same outcome. -/
theorem exec_keeps_inputs {i : Instr} {s t : State} (h : exec i s = .next t) :
    t.cmdIn = s.cmdIn ∧ t.resetIn = s.resetIn := by
  have hput : Host.Outcome.next (ρ := Refusal) (φ := Fault) t = .next (setInputs s.cmdIn s.resetIn t) :=
    calc .next t
        = exec i (setInputs s.cmdIn s.resetIn s) := h.symm
      _ = onNext (setInputs s.cmdIn s.resetIn) (exec i s) := exec_setInputs i _ _ s
      _ = .next (setInputs s.cmdIn s.resetIn t) := by rw [h]; rfl
  rw [Host.Outcome.next.inj hput]
  exact ⟨rfl, rfl⟩

theorem exec_keeps_responses {i : Instr} {s t : State} (h : exec i s = .next t) : s.rspOut <+: t.rspOut := by
  obtain ⟨r, hr, -⟩ := exec_rspOut h
  exact ⟨r, hr.symm⟩

/-- What a command takes of the entropy input it takes from the front. -/
theorem effect_entropyIn_suffix {i : Instr} {st : Status} {s s' : State} (heff : Effect st s s' i) :
    s'.entropyIn <:+ s.entropyIn := by
  cases i with
  | newsz p =>
    obtain ⟨-, rfl⟩ | ⟨-, rfl⟩ | ⟨-, B, -, rfl⟩ := heff
    · exact List.suffix_rfl
    · exact List.suffix_rfl
    · exact List.drop_suffix B.bytes s.entropyIn
  | newkey k => obtain ⟨-, rfl⟩ | ⟨-, -, rfl⟩ := heff <;> exact List.suffix_rfl
  | enc p => obtain ⟨-, rfl⟩ | ⟨-, rfl, -⟩ | ⟨-, -, rfl⟩ := heff <;> exact List.suffix_rfl
  | dec c => obtain ⟨-, rfl, -⟩ | ⟨-, -, rfl⟩ := heff <;> exact List.suffix_rfl
  | dispose p => obtain ⟨-, rfl⟩ | ⟨-, rfl⟩ := heff <;> exact List.suffix_rfl
  | rdenc p => obtain ⟨-, rfl⟩ := heff; exact List.suffix_rfl
  | rddec p => obtain ⟨-, rfl⟩ := heff; exact List.suffix_rfl

/-- A command that does not have to wait takes exactly the bytes it needs, from the front. -/
theorem exec_entropyIn {i : Instr} {s t : State} (h : exec i s = .next t)
    (he : entropyNeed i ≤ s.entropyIn.length) : t.entropyIn = s.entropyIn.drop (entropyNeed i) := by
  have hlength := exec_entropy h he
  have hsuffix : t.entropyIn <:+ s.entropyIn := by
    obtain ⟨rfl, -⟩ | ⟨st, payload, s', rfl, -, -, heff⟩ := exec_next h
    · exact List.suffix_rfl
    · rw [respond_entropyIn]
      exact effect_entropyIn_suffix heff
  rw [List.suffix_iff_eq_drop.mp hsuffix]
  congr 1
  omega

/-- A command that draws nothing completes with one response. -/
theorem exec_next_of_noDraw {i : Instr} {s t : State} (hi : entropyNeed i = 0) (h : exec i s = .next t) :
    ∃ st payload s', t = respond st payload s' ∧ Effect st s s' i := by
  obtain ⟨-, he⟩ | ⟨st, payload, s', ht, -, -, heff⟩ := exec_next h
  · omega
  · exact ⟨st, payload, s', ht, heff⟩

theorem exec_enc_frame {p : List Byte} {s t : State} (h : exec (.enc p) s = .next t) :
    t = { s with encCnt := t.encCnt, rspOut := t.rspOut } := by
  obtain ⟨st, payload, s', rfl, heff⟩ := exec_next_of_noDraw rfl h
  obtain ⟨-, rfl⟩ | ⟨-, rfl, -⟩ | ⟨-, -, rfl⟩ := heff <;> rfl

theorem exec_dec_frame {c : List Byte} {s t : State} (h : exec (.dec c) s = .next t) :
    t = { s with decCnt := t.decCnt, rspOut := t.rspOut } := by
  obtain ⟨st, payload, s', rfl, heff⟩ := exec_next_of_noDraw rfl h
  obtain ⟨-, rfl, -⟩ | ⟨-, -, rfl⟩ := heff <;> rfl

theorem exec_dispose_frame {p : List Byte} {s t : State} (h : exec (.dispose p) s = .next t) :
    t = { s with live := t.live, key := t.key, rspOut := t.rspOut } := by
  obtain ⟨st, payload, s', rfl, heff⟩ := exec_next_of_noDraw rfl h
  obtain ⟨-, rfl⟩ | ⟨-, rfl⟩ := heff <;> rfl

theorem exec_rdenc_frame {p : List Byte} {s t : State} (h : exec (.rdenc p) s = .next t) :
    t = { s with rspOut := t.rspOut } := by
  obtain ⟨st, payload, s', rfl, heff⟩ := exec_next_of_noDraw rfl h
  obtain ⟨-, rfl⟩ := heff
  rfl

theorem exec_rddec_frame {p : List Byte} {s t : State} (h : exec (.rddec p) s = .next t) :
    t = { s with rspOut := t.rspOut } := by
  obtain ⟨st, payload, s', rfl, heff⟩ := exec_next_of_noDraw rfl h
  obtain ⟨-, rfl⟩ := heff
  rfl

/-- Settles O13: the inputs stay and the responses already sent stay under every command; the rest is the
frame of each command, and for the constructions what they take of the entropy input. -/
theorem accessMatrix : Obligations.AccessMatrix := by
  intro i s t h
  obtain ⟨hcmd, hreset⟩ := exec_keeps_inputs h
  have hsent := exec_keeps_responses h
  refine ⟨hcmd, hreset, ?_⟩
  cases i with
  | newsz p =>
    refine ⟨fun he => ?_, exec_entropyIn h, hsent⟩
    exact Host.Outcome.next.inj (h.symm.trans (exec_of_noEntropy he))
  | newkey k => exact ⟨exec_entropyIn h (Nat.zero_le _), hsent⟩
  | enc p => exact ⟨exec_enc_frame h, hsent⟩
  | dec c => exact ⟨exec_dec_frame h, hsent⟩
  | dispose p => exact ⟨exec_dispose_frame h, hsent⟩
  | rdenc p => exact ⟨exec_rdenc_frame h, hsent⟩
  | rddec p => exact ⟨exec_rddec_frame h, hsent⟩

/-! ### Answers that do not depend on the context -/

/-- The command completes from both states and sends the same bytes. -/
def SameAnswer (i : Instr) (s s' : State) : Prop :=
  ∃ t t' r, exec i s = .next t ∧ exec i s' = .next t' ∧ t.rspOut = s.rspOut ++ r ∧ t'.rspOut = s'.rspOut ++ r

theorem sameAnswer_of_raise {i : Instr} {e : Status} (h : ∀ u, exec i u = .next (raise e u)) (s s' : State) :
    SameAnswer i s s' :=
  ⟨_, _, responsePacket e [], h s, h s', rfl, rfl⟩

theorem newsz_sameAnswer (p : List Byte) {s s' : State} (hent : s.entropyIn = s'.entropyIn) :
    SameAnswer (.newsz p) s s' := by
  by_cases hp : p.length = 2
  · cases hB : blockSizeOfBits (newszBits p) with
    | none => exact sameAnswer_of_raise (exec_newsz_of_badSize hp hB) s s'
    | some B =>
      by_cases he : B.bytes ≤ s.entropyIn.length
      · exact ⟨_, _, responsePacket .ok [], exec_newsz_of_draw hp hB he,
          exec_newsz_of_draw hp hB (hent ▸ he), rfl, rfl⟩
      · have hwait : s.entropyIn.length < entropyNeed (.newsz p) := by
          rw [entropyNeed_newsz hp hB]; omega
        exact ⟨s, s', [], exec_of_noEntropy hwait, exec_of_noEntropy (hent ▸ hwait), by simp, by simp⟩
  · exact sameAnswer_of_raise (exec_newsz_of_badLength hp) s s'

theorem newkey_sameAnswer (k : List Byte) (s s' : State) : SameAnswer (.newkey k) s s' := by
  cases hk : blockSizeOfLen k.length with
  | none => exact sameAnswer_of_raise (exec_newkey_of_badLength hk) s s'
  | some B =>
    exact ⟨_, _, responsePacket .ok [], exec_newkey_of_goodLength hk s, exec_newkey_of_goodLength hk s', rfl, rfl⟩

theorem dispose_sameAnswer (p : List Byte) (s s' : State) : SameAnswer (.dispose p) s s' := by
  cases p with
  | nil => exact ⟨_, _, responsePacket .ok [], exec_dispose_nil s, exec_dispose_nil s', rfl, rfl⟩
  | cons b bs => exact sameAnswer_of_raise (exec_dispose_of_badLength (by simp)) s s'

theorem rdenc_sameAnswer (p : List Byte) {s s' : State} (hcnt : s.encCnt = s'.encCnt) :
    SameAnswer (.rdenc p) s s' := by
  cases p with
  | nil =>
    exact ⟨_, _, responsePacket .ok (leBytes 2 s.encCnt.toNat), exec_rdenc_nil s, exec_rdenc_nil s', rfl,
      by rw [hcnt]; rfl⟩
  | cons b bs => exact sameAnswer_of_raise (exec_rdenc_of_badLength (by simp)) s s'

theorem rddec_sameAnswer (p : List Byte) {s s' : State} (hcnt : s.decCnt = s'.decCnt) :
    SameAnswer (.rddec p) s s' := by
  cases p with
  | nil =>
    exact ⟨_, _, responsePacket .ok (leBytes 2 s.decCnt.toNat), exec_rddec_nil s, exec_rddec_nil s', rfl,
      by rw [hcnt]; rfl⟩
  | cons b bs => exact sameAnswer_of_raise (exec_rddec_of_badLength (by simp)) s s'

/-- Settles O44: which branch each command takes is decided by its payload, and for NEWSZ by how much entropy
has arrived; what it then sends is fixed, or is the counter it reads. -/
theorem keyIsNotAnswered : Obligations.KeyIsNotAnswered := by
  intro i s s' hnotEnc hnotDec henc hdec hent
  cases i with
  | newsz p => exact newsz_sameAnswer p hent
  | newkey k => exact newkey_sameAnswer k s s'
  | enc p => exact absurd rfl (hnotEnc p)
  | dec c => exact absurd rfl (hnotDec c)
  | dispose p => exact dispose_sameAnswer p s s'
  | rdenc p => exact rdenc_sameAnswer p henc
  | rddec p => exact rddec_sameAnswer p hdec

/-! ### The reset state (10_state.md R22) -/

theorem exec_enc_of_dead {p : List Byte} {s : State} (hp : p.length ≤ engine.maxPt.val) (hlive : s.live = false) :
    exec (.enc p) s = .next (raise .noContext s) :=
  encWith_dead hp hlive

theorem exec_dec_of_dead {s : State} (c : List Byte) (hlive : s.live = false) :
    exec (.dec c) s = .next (raise .noContext s) :=
  decWith_dead hlive

/-- Reset leaves nothing for DISPOSE to wipe. -/
theorem wipe_reset : wipe State.reset = State.reset := rfl

/-- Settles O36: the registers by the definition of the reset state, the answers by each command's equation
for a state without a context and with both counters 0. -/
theorem resetState : Obligations.ResetState := by
  have henc := exec_enc_of_dead (p := []) (s := State.reset) (Nat.zero_le _) rfl
  have hdec := exec_dec_of_dead (s := State.reset) [] rfl
  have hdispose := exec_dispose_nil State.reset
  rw [wipe_reset] at hdispose
  exact ⟨⟨rfl, by decide, rfl, rfl, rfl, rfl, rfl⟩, henc, hdec, hdispose,
    exec_rdenc_nil State.reset, exec_rddec_nil State.reset⟩

/-- Settles O39: the response stream after reset is the empty sequence of packets. -/
theorem invariantAtReset : Obligations.InvariantAtReset :=
  ⟨inv_reset, [], by simp, rfl⟩

end Sys2Proof.Proofs

namespace Sys2Proof.Proofs

open Sys2Proof.Machine

/-! ### The frame buffer (20_memory.md R33) -/

theorem memReadBytes_eq_none_iff {a n : Nat} {fb : List Byte} :
    memReadBytes a n fb = none ↔ fb.length < a + n := by
  simp [memReadBytes]

theorem memWriteBytes_eq_none_iff {a : Nat} {s fb : List Byte} :
    memWriteBytes a s fb = none ↔ fb.length < a + s.length := by
  simp [memWriteBytes]

/-- A write that succeeds lies inside the buffer and replaces its range. -/
theorem memWriteBytes_eq_some_iff {a : Nat} {s fb fb' : List Byte} :
    memWriteBytes a s fb = some fb' ↔
      a + s.length ≤ fb.length ∧ fb' = fb.take a ++ s ++ fb.drop (a + s.length) := by
  simp [memWriteBytes, eq_comm]

/-- What a write stored is read back: the kept front is `a` bytes long, so the bytes written start at `a`. -/
theorem memReadBytes_of_memWriteBytes {a : Nat} {s fb fb' : List Byte} (h : memWriteBytes a s fb = some fb') :
    memReadBytes a s.length fb' = some s := by
  have hlength := memWriteBytes_length h
  obtain ⟨hrange, hfb'⟩ := memWriteBytes_eq_some_iff.mp h
  have hfront : (fb.take a).length = a := List.length_take_of_le (by omega)
  rw [memReadBytes_eq (by omega), hfb', List.append_assoc, List.drop_left' hfront, List.take_left]

/-- A write leaves the bytes before its range and behind it. -/
theorem getElem?_of_memWriteBytes_outside {a j : Nat} {s fb fb' : List Byte}
    (h : memWriteBytes a s fb = some fb') (hj : j < a ∨ a + s.length ≤ j) : fb'[j]? = fb[j]? := by
  obtain ⟨hrange, rfl⟩ := memWriteBytes_eq_some_iff.mp h
  have hfront : (fb.take a).length = a := List.length_take_of_le (by omega)
  obtain hbefore | hbehind := hj
  · rw [List.append_assoc, List.getElem?_append_left (by omega), List.getElem?_take_of_lt hbefore]
  · rw [List.getElem?_append_right (by simp; omega), List.getElem?_drop, List.length_append, hfront]
    congr 1
    omega

/-- Settles O22: the range test decides whether an access answers, and a write that does is the buffer with
its range replaced. -/
theorem frameBufferAccess : Obligations.FrameBufferAccess := by
  intro a s fb
  refine ⟨memWriteBytes_eq_none_iff, fun n => memReadBytes_eq_none_iff, fun fb' h => ?_⟩
  exact ⟨memWriteBytes_length h, memReadBytes_of_memWriteBytes h,
    fun j hj => getElem?_of_memWriteBytes_outside h hj⟩

/-! ### The order of the command stream (20_memory.md R38) -/

theorem commandOf_opcodeOf (i : Instr) : commandOf (opcodeOf i) i.payload = some i := by
  cases i <;> rfl

/-- A command's packet at the head of the stream is taken whole and read as that command. -/
theorem decode_encode_append {i : Instr} (h : i.wellFormed = true) (rest : List Byte) :
    decode (encode i ++ rest) = .command i rest := by
  have hpayload : i.payload.length < 2 ^ 32 := of_decide_eq_true h
  rw [encode, decode_commandPacket _ _ _ hpayload, commandOf_opcodeOf]

/-- A step with a command's packet at the head of the stream, its entropy answered and no reset due, executes
it; where the stream and the reset input go does not depend on what the command does. -/
theorem step_of_packet {i : Instr} {bytes : List Byte} {s : State} (hwf : i.wellFormed = true)
    (hcmd : s.cmdIn = encode i ++ bytes) (hent : entropyNeed i ≤ s.entropyIn.length)
    (hreset : dueReset s.resetIn = none) :
    step s = onNext (setInputs bytes (countdown 1 s.resetIn)) (exec i s) := by
  have hdec : decode s.cmdIn = .command i bytes := by rw [hcmd, decode_encode_append hwf]
  calc step s
      = exec i (setInputs bytes (countdown 1 s.resetIn) s) := stepRunsDecodedCommand s i bytes hdec hent hreset
    _ = onNext (setInputs bytes (countdown 1 s.resetIn)) (exec i s) := exec_setInputs i _ _ s

/-- The next reset, if there is one, comes after at least `n` more steps. -/
def ResetFree (n : Nat) (rs : List ResetRequest) : Prop :=
  ∀ r later, rs = r :: later → n ≤ r.after

theorem dueReset_of_resetFree_succ {n : Nat} {rs : List ResetRequest} (h : ResetFree (n + 1) rs) :
    dueReset rs = none := by
  cases rs with
  | nil => rfl
  | cons r later =>
    have hafter := h r later rfl
    exact if_neg (by omega)

theorem resetFree_countdown_one {n : Nat} {rs : List ResetRequest} (h : ResetFree (n + 1) rs) :
    ResetFree n (countdown 1 rs) := by
  cases rs with
  | nil => simp [ResetFree]
  | cons r later =>
    have hafter := h r later rfl
    rintro r' later' ⟨rfl, rfl⟩
    show n ≤ r.after - 1
    omega

/-- Settles O8, by induction on the commands: a step executes the first one and leaves the entropy, the
distance to the next reset and the packets that the others need; and executing commands is the same whatever
stands on the stream and the reset input. -/
theorem streamRunsInOrder : Obligations.StreamRunsInOrder := by
  intro is
  induction is with
  | nil =>
    intro rest s _ _ _ hcmd
    have hcmd' : s.cmdIn = rest := hcmd
    simp [runSteps, execAll, ← hcmd']
  | cons i is ih =>
    intro rest s hwf hent hreset hcmd
    obtain ⟨hwfi, hwfis⟩ := List.forall_mem_cons.mp hwf
    rw [List.map_cons, List.sum_cons] at hent
    rw [List.flatMap_cons, List.append_assoc] at hcmd
    have hstep := step_of_packet hwfi hcmd (by omega) (dueReset_of_resetFree_succ hreset)
    have hexec : exec i { s with cmdIn := rest, resetIn := countdown (is.length + 1) s.resetIn } =
        onNext (setInputs rest (countdown (is.length + 1) s.resetIn)) (exec i s) := exec_setInputs i _ _ s
    rw [List.length_cons, runSteps, execAll, hstep, hexec]
    cases h : exec i s with
    | fault r => rfl
    | refused r => rfl
    | next t =>
      have hdraw := exec_entropy h (by omega)
      have hent' : (is.map entropyNeed).sum ≤ t.entropyIn.length := by omega
      have hrest : runSteps is.length (setInputs (is.flatMap encode ++ rest) (countdown 1 s.resetIn) t) =
          execAll is (setInputs rest (countdown (is.length + 1) s.resetIn) t) := by
        rw [Nat.add_comm, ← countdown_countdown]
        exact ih rest _ hwfis hent' (resetFree_countdown_one hreset) rfl
      exact hrest

end Sys2Proof.Proofs

namespace Sys2Proof.Proofs

open Sys2Proof.Machine

/-! ### The encoding (30_encoding.md R51 to R53, R59) -/

/-- Settles O1: the packet says how long its payload is, and the opcode map reads each command's opcode back. -/
theorem decodeOfEncode : Obligations.DecodeOfEncode :=
  fun _ rest h => decode_encode_append h rest

/-- Settles O2: the opcode map has one opcode per command, and four bytes are the only encoding of the number
they stand for. -/
theorem encodeOfDecode : Obligations.EncodeOfDecode := by
  intro bytes rest i h
  obtain ⟨hpayload, hbytes⟩ := decode_eq_command h
  exact ⟨decide_eq_true hpayload, hbytes⟩

/-- Settles O3, by running the decoder. -/
theorem packetsOfTheSpec : Obligations.PacketsOfTheSpec :=
  ⟨rfl, rfl, rfl, rfl, rfl, rfl, rfl⟩

/-! ### Packets that execute nothing (30_encoding.md R60, R61, R63) -/

theorem step_of_truncated {s : State} (h : decode s.cmdIn = .truncated) (hreset : dueReset s.resetIn = none) :
    step s = .next (elapse s) := by
  rw [step_of_noReset hreset]
  exact serve_of_truncated h

/-- With no reset to come the bytes the host sends land behind what is on the stream. -/
theorem hostSend_cmdIn {s : State} (h : s.resetIn = []) (bytes : List Byte) :
    (hostSend bytes s).cmdIn = s.cmdIn ++ bytes := by
  simp [hostSend, h, sendAfter]

theorem step_hostReset_zero {s : State} (h : s.resetIn = []) :
    step (hostReset 0 s) = .next (resetEvent [] [] (hostReset 0 s)) :=
  step_of_reset (by simp [hostReset, h])

theorem decode_commandPacket_ne_truncated (op : Byte) {payload : List Byte} (h : payload.length < 2 ^ 32) :
    decode (commandPacket op payload) ≠ .truncated := by
  have hdec := decode_commandPacket op payload [] h
  rw [List.append_nil] at hdec
  rw [hdec]
  cases commandOf op payload <;> simp

/-- Settles O5: a packet cut short is no packet, so the engine waits; with the missing bytes behind it the cut
packet is the whole one again. -/
theorem truncatedPacketWaits : Obligations.TruncatedPacketWaits := by
  intro op payload k s hpayload hk hcmd
  have hdec : decode s.cmdIn = .truncated := by rw [hcmd, decode_take_commandPacket op payload k hpayload hk]
  refine ⟨serve_of_truncated hdec, step_of_truncated hdec, fun hreset => ?_⟩
  have hwhole : (hostSend ((commandPacket op payload).drop k) s).cmdIn = commandPacket op payload := by
    rw [hostSend_cmdIn hreset, hcmd, List.take_append_drop]
  refine ⟨hwhole, ?_, step_hostReset_zero hreset⟩
  rw [hwhole]
  exact decode_commandPacket_ne_truncated op hpayload

theorem illegalOpcode_iff (op : Byte) (payload : List Byte) :
    commandOf op payload = none ↔ op = 0 ∨ 8 ≤ op.toNat := by
  rw [commandOf_eq_none, ← BitVec.toNat_inj]
  rfl

/-- Settles O6: a packet whose opcode the map does not know is taken whole and refused. -/
theorem illegalOpcodeConsumed : Obligations.IllegalOpcodeConsumed := by
  refine ⟨illegalOpcode_iff, fun op payload rest s hop hpayload hcmd => ?_⟩
  have hdec : decode s.cmdIn = .illegal op rest := by
    rw [hcmd, decode_commandPacket op payload rest hpayload, (illegalOpcode_iff op payload).mpr hop]
  exact serve_of_illegal hdec

/-- A payload whose length the command does not allow makes it an illegal command, in every state. -/
theorem exec_of_lenNotAllowed {i : Instr} (h : i.lenAllowed engine.maxPt.val = false) (s : State) :
    exec i s = .next (raise .illegalCommand s) := by
  cases i with
  | newsz p => exact exec_newsz_of_badLength (of_decide_eq_false h) s
  | newkey k => cases h
  | enc p => exact encWith_tooLong s (Nat.lt_of_not_le (of_decide_eq_false h))
  | dec c => cases h
  | dispose p => exact exec_dispose_of_badLength (of_decide_eq_false h) s
  | rdenc p => exact exec_rdenc_of_badLength (of_decide_eq_false h) s
  | rddec p => exact exec_rddec_of_badLength (of_decide_eq_false h) s

theorem entropyNeed_of_lenNotAllowed {m : Nat} {i : Instr} (h : i.lenAllowed m = false) : entropyNeed i = 0 := by
  cases i with
  | newsz p => exact if_neg (of_decide_eq_false h)
  | _ => rfl

theorem blockSizeOfLen_eq_none {n : Nat} (h16 : n ≠ 16) (h24 : n ≠ 24) (h32 : n ≠ 32) :
    blockSizeOfLen n = none := by
  simp [blockSizeOfLen, h16, h24, h32]

/-- Settles O7: an offending length is found before anything is drawn, installed or decrypted; only DEC in a
live context has counted itself by then. -/
theorem offendingLengths : Obligations.OffendingLengths := by
  refine ⟨fun i rest s hwf hlen hcmd => ?_, fun key s h16 h24 h32 => ?_, fun c s B hlive hbs hlen => ?_⟩
  · have hdec : decode s.cmdIn = .command i rest := by rw [hcmd, decode_encode_append hwf]
    have hent : entropyNeed i ≤ s.entropyIn.length := by simp [entropyNeed_of_lenNotAllowed hlen]
    rw [serve_of_command hdec hent]
    exact exec_of_lenNotAllowed hlen (consume rest s)
  · exact exec_newkey_of_badLength (blockSizeOfLen_eq_none h16 h24 h32) s
  · exact decWith_badLength hlive (contextSize_eq_some.mpr hbs) hlen

/-! ### Responses (30_encoding.md R56, R57; 60_exceptions.md R201) -/

theorem effect_rspOut {i : Instr} {st : Status} {s s' : State} (heff : Effect st s s' i) :
    s'.rspOut = s.rspOut := by
  cases i with
  | newsz p => obtain ⟨-, rfl⟩ | ⟨-, rfl⟩ | ⟨-, B, -, rfl⟩ := heff <;> rfl
  | newkey k => obtain ⟨-, rfl⟩ | ⟨-, -, rfl⟩ := heff <;> rfl
  | enc p => obtain ⟨-, rfl⟩ | ⟨-, rfl, -⟩ | ⟨-, -, rfl⟩ := heff <;> rfl
  | dec c => obtain ⟨-, rfl, -⟩ | ⟨-, -, rfl⟩ := heff <;> rfl
  | dispose p => obtain ⟨-, rfl⟩ | ⟨-, rfl⟩ := heff <;> rfl
  | rdenc p => obtain ⟨-, rfl⟩ := heff; rfl
  | rddec p => obtain ⟨-, rfl⟩ := heff; rfl

theorem effect_status_mem {i : Instr} {st : Status} {s s' : State} (heff : Effect st s s' i) :
    st ∈ mayEndWith i := by
  cases i with
  | newsz p => obtain ⟨rfl, -⟩ | ⟨rfl, -⟩ | ⟨rfl, -⟩ := heff <;> simp [mayEndWith]
  | newkey k => obtain ⟨rfl, -⟩ | ⟨rfl, -⟩ := heff <;> simp [mayEndWith]
  | enc p => obtain ⟨rfl, -⟩ | ⟨rfl, -⟩ | ⟨rfl, -⟩ := heff <;> simp [mayEndWith]
  | dec c => obtain ⟨rfl, -⟩ | ⟨rfl | rfl | rfl | rfl, -⟩ := heff <;> simp [mayEndWith]
  | dispose p => obtain ⟨rfl, -⟩ | ⟨rfl, -⟩ := heff <;> simp [mayEndWith]
  | rdenc p => obtain ⟨rfl | rfl, -⟩ := heff <;> simp [mayEndWith]
  | rddec p => obtain ⟨rfl | rfl, -⟩ := heff <;> simp [mayEndWith]

/-- Settles O11: a command that had its draw has one of its effects, none of which touches the response
stream, and then sends its one response. -/
theorem oneResponsePerCommand : Obligations.OneResponsePerCommand := by
  intro i s t hexec hent
  obtain ⟨-, hwait⟩ | ⟨st, payload, s', rfl, herror, -, heff⟩ := exec_next hexec
  · omega
  · refine ⟨st, payload, effect_status_mem heff, herror, ?_⟩
    rw [respond_rspOut, effect_rspOut heff, responsePacket]

theorem responsesWhole_of_rspOut {s t : State} (h : ResponsesWhole s) (hrsp : t.rspOut = s.rspOut) :
    ResponsesWhole t := by
  rwa [ResponsesWhole, hrsp]

theorem responsesWhole_respond {s : State} (h : ResponsesWhole s) {st : Status} {payload : List Byte}
    (hlegal : legalResponse st payload) : ResponsesWhole (respond st payload s) := by
  obtain ⟨rs, hrs, hout⟩ := h
  refine ⟨rs ++ [(st, payload)], fun r hr => ?_, by simp [hout]⟩
  obtain hr | hr := List.mem_append.mp hr
  · exact hrs r hr
  · obtain rfl := List.mem_singleton.mp hr
    exact hlegal

theorem responsesWhole_raise {s : State} (h : ResponsesWhole s) (e : Status) : ResponsesWhole (raise e s) :=
  responsesWhole_respond h ⟨fun _ => rfl, by simp⟩

/-- A command a packet can carry answers no more bytes than a response packet can carry (41_encrypt.md R102):
ENC by the bound on its plaintext, DEC because the plaintext is no longer than the ciphertext. -/
theorem exec_keeps_responsesWhole {i : Instr} {s t : State} (hwf : i.payload.length < 2 ^ 32)
    (h : ResponsesWhole s) (hexec : exec i s = .next t) : ResponsesWhole t := by
  obtain ⟨rfl, -⟩ | ⟨st, payload, s', rfl, herror, hlen, heff⟩ := exec_next hexec
  · exact h
  · exact responsesWhole_respond (responsesWhole_of_rspOut h (effect_rspOut heff)) ⟨herror, by omega⟩

theorem serve_keeps_responsesWhole {s t : State} (h : ResponsesWhole s) (hserve : serve s = .next t) :
    ResponsesWhole t := by
  obtain rfl | ⟨rest, rfl⟩ | ⟨i, rest, hdec, -, hexec⟩ := serve_next hserve
  · exact h
  · exact responsesWhole_raise (responsesWhole_of_rspOut h (consume_rspOut rest s)) _
  · obtain ⟨hpayload, -⟩ := decode_eq_command hdec
    exact exec_keeps_responsesWhole hpayload (responsesWhole_of_rspOut h (consume_rspOut rest s)) hexec

/-- Settles O42: a reset empties the response stream; serving the command stream sends nothing, the refusal of
an illegal packet, or the response of a command that came in a packet. -/
theorem responseStreamStaysWhole : Obligations.ResponseStreamStaysWhole := by
  intro s t h hstep
  obtain ⟨sent, later, -, rfl⟩ | ⟨-, hserve⟩ := step_next hstep
  · exact ⟨[], by simp, rfl⟩
  · exact serve_keeps_responsesWhole (responsesWhole_of_rspOut h (elapse_rspOut s)) hserve

/-! ### A step always answers (30_encoding.md R66) -/

theorem blockSize_of_live {s : State} (h : Inv s) (hlive : s.live = true) :
    ∃ B : BlockSize, s.bs.toNat = B.bytes := by
  obtain h16 | h24 | h32 := h.liveSize hlive
  · exact ⟨.b16, h16⟩
  · exact ⟨.b24, h24⟩
  · exact ⟨.b32, h32⟩

theorem serve_answers {s : State} (h : Inv s) : ∃ t, serve s = .next t := by
  cases hdec : decode s.cmdIn with
  | command i rest =>
    by_cases hent : entropyNeed i ≤ s.entropyIn.length
    · rw [serve_of_command hdec hent]
      exact exec_answers i _ (blockSize_of_live (inv_consume h rest))
    · exact ⟨s, serve_of_noEntropy hdec (Nat.lt_of_not_le hent)⟩
  | illegal op rest => exact ⟨_, serve_of_illegal hdec⟩
  | truncated => exact ⟨s, serve_of_truncated hdec⟩

/-- Settles O41: a reset answers in every state, and serving the stream can only be stopped by a live context
of no legal block size, which the invariants rule out. -/
theorem stepNeverStops : Obligations.StepNeverStops := by
  intro s h
  cases hreset : dueReset s.resetIn with
  | some due => exact ⟨_, step_of_reset (dueReset_eq_some.mp hreset)⟩
  | none =>
    rw [StepAnswers, step_of_noReset hreset]
    exact serve_answers (inv_elapse h)

/-! ### The textual form of a command (30_encoding.md R64) -/

/-- A non-empty run of characters with no blank and no comment sign. -/
def IsWord (w : List Char) : Prop :=
  w ≠ [] ∧ ∀ c ∈ w, isWordChar c = true

theorem stripComment_eq_self {w : List Char} (h : ∀ c ∈ w, c ≠ ';') : stripComment w = w := by
  simpa [stripComment] using stripComment_append w [] h

theorem IsWord.noComment {w : List Char} (h : IsWord w) : ∀ c ∈ w, c ≠ ';' := by
  obtain ⟨-, hchars⟩ := h
  intro c hc
  obtain ⟨-, -, hsemicolon⟩ := of_decide_eq_true (hchars c hc)
  exact hsemicolon

theorem wordsFrom_lastWord {w : List Char} (h : IsWord w) : wordsFrom [] w = [w] := by
  have hword := wordsFrom_word w h.2 [] []
  simpa [wordsFrom, h.1] using hword

theorem wordsFrom_word_blank {w : List Char} (h : IsWord w) (rest : List Char) :
    wordsFrom [] (w ++ ' ' :: rest) = w :: wordsFrom [] rest := by
  rw [wordsFrom_word w h.2]
  simp [wordsFrom, h.1]

/-- A mnemonic, a blank and an operand are two words. -/
theorem words_of_operandLine {m w : List Char} (hm : IsWord m) (hw : IsWord w) :
    wordsFrom [] (stripComment (m ++ ' ' :: w)) = [m, w] := by
  rw [stripComment_append _ _ hm.noComment,
    stripComment_eq_self (List.forall_mem_cons.mpr ⟨by decide, hw.noComment⟩),
    wordsFrom_word_blank hm, wordsFrom_lastWord hw]

/-- They are the same two words with a comment behind them. -/
theorem words_of_commentedLine {m w : List Char} (hm : IsWord m) (hw : IsWord w) (comment : List Char) :
    wordsFrom [] (stripComment (m ++ ' ' :: (w ++ ' ' :: ';' :: comment))) = [m, w] := by
  have hstrip : stripComment (' ' :: (w ++ ' ' :: ';' :: comment)) = ' ' :: (w ++ [' ']) := by
    have hpre : ∀ c ∈ ' ' :: w, c ≠ ';' := List.forall_mem_cons.mpr ⟨by decide, hw.noComment⟩
    simpa [stripComment] using stripComment_append (' ' :: w) (' ' :: ';' :: comment) hpre
  rw [stripComment_append _ _ hm.noComment, hstrip, wordsFrom_word_blank hm, wordsFrom_word_blank hw]
  rfl

theorem isWord_hexText {p : List Byte} (hp : p ≠ []) : IsWord (hexText p) :=
  ⟨hexText_ne_nil hp, fun c hc => (hexText_word p c hc).1⟩

theorem isWord_digits {ds : List Nat} (hne : ds ≠ []) (h : ∀ d ∈ ds, d < 10) : IsWord (ds.map hexChar) := by
  refine ⟨by simpa using hne, fun c hc => ?_⟩
  obtain ⟨d, hd, rfl⟩ := List.mem_map.mp hc
  have hlt := h d hd
  exact (hexChar_word d (by omega)).1

/-- Hexadecimal text is never the two quotation marks of the empty operand. -/
theorem bytesOperand_hexText (p : List Byte) : bytesOperand (hexText p) = some p := by
  have hquote : hexText p ≠ ['"', '"'] := fun h => (hexText_word p '"' (by simp [h])).2 rfl
  rw [bytesOperand, if_neg hquote, hexBytes_hexText]

theorem assemble_encLine {w : List Char} (hw : IsWord w) (comment : List Char) :
    assemble (['E', 'N', 'C', ' '] ++ w ++ ' ' :: ';' :: comment) = (bytesOperand w).map .enc := by
  have hline : ['E', 'N', 'C', ' '] ++ w ++ ' ' :: ';' :: comment =
      ['E', 'N', 'C'] ++ ' ' :: (w ++ ' ' :: ';' :: comment) := rfl
  rw [hline, assemble, words_of_commentedLine ⟨by decide, by simp [isWordChar]⟩ hw]
  rfl

theorem assemble_decLine {w : List Char} (hw : IsWord w) :
    assemble (['D', 'E', 'C', ' '] ++ w) = (bytesOperand w).map .dec := by
  have hline : ['D', 'E', 'C', ' '] ++ w = ['D', 'E', 'C'] ++ ' ' :: w := rfl
  rw [hline, assemble, words_of_operandLine ⟨by decide, by simp [isWordChar]⟩ hw]
  rfl

theorem assemble_newkeyLine {w : List Char} (hw : IsWord w) :
    assemble (['N', 'E', 'W', 'K', 'E', 'Y', ' '] ++ w) = (hexBytes w).map .newkey := by
  have hline : ['N', 'E', 'W', 'K', 'E', 'Y', ' '] ++ w = ['N', 'E', 'W', 'K', 'E', 'Y'] ++ ' ' :: w := rfl
  rw [hline, assemble, words_of_operandLine ⟨by decide, by simp [isWordChar]⟩ hw]
  rfl

theorem assemble_newszLine {w : List Char} (hw : IsWord w) {bits : Nat} (hbits : decimalFrom 0 w = some bits) :
    assemble (['N', 'E', 'W', 'S', 'Z', ' '] ++ w) =
      if bits < 65536 then some (.newsz (leBytes 2 bits)) else none := by
  have hline : ['N', 'E', 'W', 'S', 'Z', ' '] ++ w = ['N', 'E', 'W', 'S', 'Z'] ++ ' ' :: w := rfl
  rw [hline, assemble, words_of_operandLine ⟨by decide, by simp [isWordChar]⟩ hw]
  simp [hbits]

/-- Settles O9: each line with an operand is cut into its mnemonic and its operand, and the operand is read
back as the bytes or the number it was written from; the fixed lines are run. -/
theorem assemblyLines : Obligations.AssemblyLines := by
  refine ⟨fun p comment hp => ⟨?_, ?_, ?_⟩, by decide, by decide, by decide, by decide, by decide, by decide,
    by decide, by decide, fun ds hne hds => ?_⟩
  · rw [assemble_encLine (isWord_hexText hp), bytesOperand_hexText, Option.map_some]
  · rw [assemble_decLine (isWord_hexText hp), bytesOperand_hexText, Option.map_some]
  · rw [assemble_newkeyLine (isWord_hexText hp), hexBytes_hexText, Option.map_some]
  · exact assemble_newszLine (isWord_digits hne hds) (decimalFrom_digits ds hds 0)

end Sys2Proof.Proofs

namespace Sys2Proof.Proofs

open Sys2Proof.Machine

/-! ### Construction and disposal (40_construction.md R80 to R87) -/

/-- The register holds the key in front of its zero tail (R82). -/
theorem take_keyImage {k : List Byte} (hk : k.length ≤ 32) : (keyImage k).toList.take k.length = k := by
  apply List.ext_getElem
  · simpa using hk
  · intro i _ hi
    simp [keyImage, hi]

theorem toList_keyImage {k : List Byte} (hk : k.length ≤ 32) :
    (keyImage k).toList = k ++ List.replicate (32 - k.length) 0 := by
  rw [← List.take_append_drop k.length (keyImage k).toList, take_keyImage hk, drop_keyImage]

theorem exists_blockSize {n : Nat} (h : n = 16 ∨ n = 24 ∨ n = 32) : ∃ B : BlockSize, n = B.bytes := by
  obtain rfl | rfl | rfl := h
  · exact ⟨.b16, rfl⟩
  · exact ⟨.b24, rfl⟩
  · exact ⟨.b32, rfl⟩

/-- The state a construction that succeeds leaves behind (R82): a fresh context with the key, and on the
streams one OK response. -/
theorem respond_ok_install {k : List Byte} {B : BlockSize} (hk : k.length = B.bytes) {s t : State}
    (ht : t = respond .ok [] (install k s)) :
    t.live = true ∧ t.key.toList = k ++ List.replicate (32 - k.length) 0 ∧ t.bs.toNat = k.length ∧
      t.encCnt = 0 ∧ t.decCnt = 0 ∧ t.entropyIn = s.entropyIn ∧ t.cmdIn = s.cmdIn ∧
      t.resetIn = s.resetIn ∧ t.rspOut = s.rspOut ++ [0x00, 0, 0, 0, 0] := by
  subst ht
  have hlength : k.length ≤ 32 := hk ▸ (bytes_pos B).2
  exact ⟨rfl, toList_keyImage hlength, install_bs_toNat hk s, rfl, rfl, rfl, rfl, rfl, rfl⟩

/-- Settles O15: the key's length decides between installing it and refusing it, whatever the state. -/
theorem newkeyConstructs : Obligations.NewkeyConstructs := by
  intro key s
  split
  case isTrue hsize =>
    obtain ⟨B, hB⟩ := exists_blockSize hsize
    exact ⟨_, exec_newkey_of_goodLength (blockSizeOfLen_eq_some.mpr hB) s, respond_ok_install hB rfl⟩
  case isFalse hsize =>
    obtain ⟨h16, h24, h32⟩ : key.length ≠ 16 ∧ key.length ≠ 24 ∧ key.length ≠ 32 := by simpa using hsize
    exact exec_newkey_of_badLength (blockSizeOfLen_eq_none h16 h24 h32) s

theorem newszBits_pair (lo hi : Byte) : newszBits [lo, hi] = lo.toNat + 256 * hi.toNat := rfl

theorem blockSizeOfBits_eq_none {bits : Nat} (h128 : bits ≠ 128) (h192 : bits ≠ 192) (h256 : bits ≠ 256) :
    blockSizeOfBits bits = none := by
  simp [blockSizeOfBits, h128, h192, h256]

/-- With the draw at the head of the entropy input NEWSZ is an installation of it, on the state whose entropy
input continues behind it. -/
theorem exec_newsz_of_entropy {p rnd later : List Byte} {B : BlockSize} (hp : p.length = 2)
    (hB : blockSizeOfBits (newszBits p) = some B) (hrnd : rnd.length = B.bytes) {s : State}
    (he : s.entropyIn = rnd ++ later) :
    exec (.newsz p) s = .next (respond .ok [] (install rnd { s with entropyIn := later })) := by
  have harrived : B.bytes ≤ s.entropyIn.length := by rw [he, List.length_append]; omega
  rw [exec_newsz_of_draw hp hB harrived, he, List.take_left' hrnd, List.drop_left' hrnd]

/-- Settles O14: the width of the operand, then the size it names, decide; the draw for a legal size is
installed as a key of that size is. -/
theorem newszConstructs : Obligations.NewszConstructs := by
  refine ⟨fun p s hp => exec_newsz_of_badLength hp s, fun lo hi s h128 h192 h256 => ?_,
    fun lo hi rnd later s hbits hlength he => ?_⟩
  · have hnone : blockSizeOfBits (newszBits [lo, hi]) = none := by
      rw [newszBits_pair, blockSizeOfBits_eq_none h128 h192 h256]
    exact exec_newsz_of_badSize rfl hnone s
  · obtain ⟨B, hrnd⟩ : ∃ B : BlockSize, rnd.length = B.bytes := exists_blockSize (by omega)
    have hB : blockSizeOfBits (newszBits [lo, hi]) = some B := by
      rw [blockSizeOfBits_eq_some, newszBits_pair, ← hlength, hrnd]
    exact ⟨_, exec_newsz_of_entropy rfl hB hrnd he, respond_ok_install hrnd rfl⟩

/-- A command that is a construction. -/
def IsConstruction (i : Instr) : Prop :=
  (∃ p, i = .newsz p) ∨ ∃ k, i = .newkey k

/-- A construction writes the state only when its status is OK (R86). -/
theorem effect_construction_error {i : Instr} (hi : IsConstruction i) {st : Status} {s s' : State}
    (heff : Effect st s s' i) (hst : st ≠ .ok) : s' = s := by
  obtain ⟨p, rfl⟩ | ⟨k, rfl⟩ := hi
  · obtain ⟨-, hs⟩ | ⟨-, hs⟩ | ⟨hok, -⟩ := heff
    · exact hs
    · exact hs
    · exact absurd hok hst
  · obtain ⟨-, hs⟩ | ⟨hok, -⟩ := heff
    · exact hs
    · exact absurd hok hst

/-- The status of a response is the byte behind what was sent before. -/
theorem statusCode_of_rspOut {st : Status} {payload r : List Byte} {s : State} {b : Byte}
    (h : (respond st payload s).rspOut = s.rspOut ++ b :: r) : statusCode st = b := by
  have hpacket : responsePacket st payload = b :: r := List.append_cancel_left h
  exact (List.cons.inj hpacket).1

/-- Settles O16: only an OK construction writes a register, and its response begins with the byte 0, not
with an error's status. -/
theorem failedConstructionChangesNothing : Obligations.FailedConstructionChangesNothing := by
  intro i s t hi hexec hrsp
  obtain ⟨rfl, -⟩ | ⟨st, payload, s', rfl, -, -, heff⟩ := exec_next hexec
  · rfl
  · have hst : st ≠ .ok := by
      rintro rfl
      rw [← effect_rspOut heff] at hrsp
      obtain hsize | hillegal := hrsp
      · exact absurd (statusCode_of_rspOut hsize) (by decide)
      · exact absurd (statusCode_of_rspOut hillegal) (by decide)
    rw [effect_construction_error hi heff hst]
    rfl

/-- There is nothing left to wipe without a context and a key. -/
theorem wipe_eq_self {s : State} (hlive : s.live = false) (hkey : s.key = Vector.replicate 32 0) :
    wipe s = s := by
  rw [wipe, ← hlive, ← hkey]

/-- Settles O18: DISPOSE answers with the wiped state, on which a second one has nothing left to wipe. -/
theorem disposeWipes : Obligations.DisposeWipes := by
  refine ⟨fun s => ?_, fun payload s hp => exec_dispose_of_badLength (by simpa using hp) s⟩
  have hwiped : wipe (respond .ok [] (wipe s)) = respond .ok [] (wipe s) := wipe_eq_self rfl rfl
  have hagain := exec_dispose_nil (respond .ok [] (wipe s))
  rw [hwiped] at hagain
  exact ⟨_, exec_dispose_nil s, Vector.toList_replicate, rfl, rfl, rfl, rfl, rfl, rfl, rfl, rfl, hagain⟩

end Sys2Proof.Proofs

namespace Sys2Proof.Proofs

open Sys2Proof.Machine

/-! ### The padding length (41_encrypt.md R101) -/

/-- No smaller padding completes the frame: two paddings that do differ by whole blocks, and `padLen` is less
than one. -/
theorem padLen_le_of_mod {L P : Nat} {B : BlockSize} (h : (5 + L + P) % B.bytes = 0) :
    padLen L B.bytes ≤ P := by
  by_contra hlt
  have hframe : B.bytes ∣ frameLen L B.bytes := Nat.dvd_of_mod_eq_zero (frameLen_mod L B)
  have hgap : frameLen L B.bytes - (5 + L + P) = padLen L B.bytes - P := by
    simp only [frameLen, headerLen]; omega
  have hdvd : B.bytes ∣ padLen L B.bytes - P := hgap ▸ Nat.dvd_sub hframe (Nat.dvd_of_mod_eq_zero h)
  have hle := Nat.le_of_dvd (by omega) hdvd
  have := padLen_lt L B
  omega

theorem padLen_add_bytes (L B : Nat) : padLen (L + B) B = padLen L B := by
  rw [padLen, padLen, Nat.add_right_comm, Nat.add_mod_right]

/-- Settles O21: the padding completes the frame, and is the least number that does, so it is 0 for a frame
that is complete without it. -/
theorem paddingLength : Obligations.PaddingLength := by
  intro L B
  refine ⟨padLen_lt L B, frameLen_mod L B, fun P => padLen_le_of_mod, fun h => ?_, padLen_add_bytes L B.bytes⟩
  have hcomplete : (5 + L + 0) % B.bytes = 0 := by rwa [Nat.add_comm 5 L]
  exact Nat.le_zero.mp (padLen_le_of_mod hcomplete)

/-! ### The packed frame (41_encrypt.md R103, R104) -/

/-- Four bytes stored low first, put together again high first. -/
theorem leBytes_four_toNat (v : BitVec 32) :
    ∃ c0 c1 c2 c3 : Byte, v = c3 ++ c2 ++ c1 ++ c0 ∧ leBytes 4 v.toNat = [c0, c1, c2, c3] := by
  refine ⟨_, _, _, _, BitVec.eq_of_toNat_eq ?_, leBytes_four v.toNat⟩
  have := v.isLt
  rw [toNat_append_byte, toNat_append_byte, toNat_append_byte]
  simp only [BitVec.toNat_ofNat]
  omega

/-- Settles O23: a buffer of the right size is overwritten with the frame's four fields, and the checksum
field is the checksum's bytes, low first. -/
theorem packFillsTheFrame : Obligations.PackFillsTheFrame := by
  intro P chk p fb _ hlength
  obtain ⟨c0, c1, c2, c3, hchk, hbytes⟩ := leBytes_four_toNat chk
  refine ⟨c0, c1, c2, c3, hchk, ?_⟩
  rw [pack_eq P chk p fb hlength, frameBytes, leBytes_one, hbytes]
  rfl

/-! ### The datapaths (41_encrypt.md R105, 42_decrypt.md R122) -/

/-- Settles O24: what stands at a block's place in the output is a function of the block at that place in the
input, so equal blocks stay equal. -/
theorem ecbBlockByBlock : Obligations.EcbBlockByBlock := by
  intro cfg B k fb hwhole
  have henc := ecb_block B (cfg.E B k) (fb.length / B.bytes) fb
  have hdec := ecb_block B (cfg.D B k) (fb.length / B.bytes) fb
  refine ⟨ecbEnc_length cfg B k fb hwhole, ecbDec_length cfg B k fb hwhole,
    fun i hi => ⟨henc i hi, hdec i hi⟩, fun i j hi hj heq => ?_⟩
  rw [ecbEnc, henc i hi, henc j hj, heq]

/-! ### ENC and DEC in a live context (41_encrypt.md R100, 42_decrypt.md R120) -/

/-- A block is made of the first bytes of the list only. -/
theorem blockOfList_take (B : BlockSize) (l : List Byte) : blockOfList B (l.take B.bytes) = blockOfList B l := by
  apply Vector.ext
  intro i hi
  simp [blockOfList]

/-- The cipher's key is `KEY[0 .. BS]` (10_state.md R11). -/
theorem contextKey_eq (B : BlockSize) (s : State) :
    contextKey B s = blockOfList B (s.key.toList.take B.bytes) :=
  (blockOfList_take B s.key.toList).symm

theorem exec_enc_of_tooLong {p : List Byte} (hp : engine.maxPt.val < p.length) (s : State) :
    exec (.enc p) s = .next (raise .illegalCommand s) :=
  encWith_tooLong s hp

theorem exec_enc_of_live {p : List Byte} {s : State} {B : BlockSize} (hp : p.length ≤ engine.maxPt.val)
    (hlive : s.live = true) (hbs : s.bs.toNat = B.bytes) :
    exec (.enc p) s =
      .next (respond .ok (ciphertext engine B (blockOfList B (s.key.toList.take B.bytes)) p) (countEnc s)) := by
  rw [← contextKey_eq]
  exact encWith_live hp hlive (contextSize_eq_some.mpr hbs)

theorem exec_dec_of_badLength {c : List Byte} {s : State} {B : BlockSize} (hlive : s.live = true)
    (hbs : s.bs.toNat = B.bytes) (hc : c.length = 0 ∨ c.length % B.bytes ≠ 0) :
    exec (.dec c) s = .next (raise .invalidCiphertextLength (countDec s)) :=
  decWith_badLength hlive (contextSize_eq_some.mpr hbs) hc

theorem exec_dec_of_wholeBlocks {c : List Byte} {s : State} {B : BlockSize} {v : Status × List Byte}
    (hlive : s.live = true) (hbs : s.bs.toNat = B.bytes) (hc : ¬(c.length = 0 ∨ c.length % B.bytes ≠ 0))
    (hv : v = verdict engine (ecbDec engine B (blockOfList B (s.key.toList.take B.bytes)) c)) :
    exec (.dec c) s = .next (respond v.1 v.2 (countDec s)) := by
  rw [hv, ← contextKey_eq]
  exact decWith_live hlive (contextSize_eq_some.mpr hbs) hc

/-- Settles O25: the length bound, then the context test, then the live case, whose ciphertext is that of the
packed frame. -/
theorem encAnswersCiphertext : Obligations.EncAnswersCiphertext := by
  intro p s
  exact ⟨fun hp => exec_enc_of_tooLong hp s, fun hp hdead => exec_enc_of_dead hp hdead,
    fun B hp hlive hbs => exec_enc_of_live hp hlive hbs⟩

/-! ### The ciphertext's length (41_encrypt.md R102) -/

/-- The multiple of `b` that is less than `b` above `m` is `m` rounded up. -/
theorem roundUp_eq {b m n : Nat} (hn : n % b = 0) (hle : m ≤ n) (hlt : n < m + b) :
    (m + (b - 1)) / b * b = n := by
  have hq : n / b * b = n := Nat.div_mul_cancel (Nat.dvd_of_mod_eq_zero hn)
  have hdiv : (m + (b - 1)) / b = n / b := by
    apply Nat.div_eq_of_lt_le
    · omega
    · rw [Nat.succ_mul]; omega
  rw [hdiv, hq]

/-- The frame's length is `L + 5` rounded up to whole blocks. -/
theorem frameLen_eq_roundUp (L : Nat) (B : BlockSize) :
    frameLen L B.bytes = (L + 5 + (B.bytes - 1)) / B.bytes * B.bytes := by
  have := padLen_lt L B
  have hlength : frameLen L B.bytes = L + 5 + padLen L B.bytes := by simp only [frameLen, headerLen]; omega
  exact (roundUp_eq (frameLen_mod L B) (by omega) (by omega)).symm

/-- Settles O26: the ciphertext is as long as the frame, which is a whole number of blocks, not none, and
longer than the plaintext by the header and less than a block; the bound on the plaintext leaves room for
both below `2 ^ 32`. -/
theorem ciphertextLength : Obligations.CiphertextLength := by
  intro p s B hp hlive hbs
  refine ⟨_, _, exec_enc_of_live hp hlive hbs, rfl, ?_⟩
  have hwhole := frameLen_mod p.length B
  have hframe : frameLen p.length B.bytes = 5 + p.length + padLen p.length B.bytes := rfl
  have hpad := padLen_lt p.length B
  have ⟨_, hbytes⟩ := bytes_pos B
  have hmax := engine.maxPt.isLt
  rw [ciphertext_length]
  exact ⟨frameLen_eq_roundUp p.length B, hframe, hwhole,
    Nat.le_of_dvd (by omega) (Nat.dvd_of_mod_eq_zero hwhole), by omega, by omega⟩

/-! ### What the answers of ENC and DEC depend on (41_encrypt.md R106, 43_counters.md R145) -/

section
variable {s s' : State} {B : BlockSize} (hlive : s.live = true) (hlive' : s'.live = true)
  (hbs : s.bs.toNat = B.bytes) (hbs' : s'.bs.toNat = B.bytes)
  (hkey : s.key.toList.take B.bytes = s'.key.toList.take B.bytes)
include hlive hlive' hbs hbs' hkey

theorem enc_sameAnswer (p : List Byte) : SameAnswer (.enc p) s s' := by
  by_cases hp : p.length ≤ engine.maxPt.val
  · exact ⟨_, _, _, exec_enc_of_live hp hlive hbs, exec_enc_of_live hp hlive' hbs', rfl, by rw [hkey]; rfl⟩
  · exact sameAnswer_of_raise (exec_enc_of_tooLong (Nat.lt_of_not_le hp)) s s'

theorem dec_sameAnswer (c : List Byte) : SameAnswer (.dec c) s s' := by
  by_cases hc : c.length = 0 ∨ c.length % B.bytes ≠ 0
  · exact ⟨_, _, responsePacket .invalidCiphertextLength [], exec_dec_of_badLength hlive hbs hc,
      exec_dec_of_badLength hlive' hbs' hc, rfl, rfl⟩
  · exact ⟨_, _, _, exec_dec_of_wholeBlocks hlive hbs hc rfl, exec_dec_of_wholeBlocks hlive' hbs' hc rfl, rfl,
      by rw [hkey]; rfl⟩

end

/-- Settles O27: the tests of a live context are on the payload, and ciphertext and verdict are functions of
the payload and `KEY[0 .. BS]`. -/
theorem answersDependOnKeyAndPayload : Obligations.AnswersDependOnKeyAndPayload := by
  intro s s' B p hlive hlive' hbs hbs' hkey
  exact ⟨enc_sameAnswer hlive hlive' hbs hbs' hkey p, dec_sameAnswer hlive hlive' hbs hbs' hkey p⟩

end Sys2Proof.Proofs

namespace Sys2Proof.Proofs

open Sys2Proof.Machine

/-! ### DEC in every case (42_decrypt.md R120 to R126, R129, R130) -/

/-- The padding length is the frame's first byte (R123). -/
theorem fromLe_take_one (fb : List Byte) : fromLe (fb.take 1) = (fb.getD 0 0).toNat := by
  cases fb with
  | nil => rfl
  | cons b rest => exact fromLe_singleton b

/-- The response to a recovered frame: the slice test comes before the checksum comparison (R124, R125). -/
theorem responsePacket_verdict (cfg : Config) (fb : List Byte) :
    responsePacket (verdict cfg fb).1 (verdict cfg fb).2 =
      if 5 + (fb.getD 0 0).toNat > fb.length then [0x03, 0, 0, 0, 0]
      else if (cfg.hash32 ((fb.drop 5).take (fb.length - (fb.getD 0 0).toNat - 5))).toNat ≠
          fromLe ((fb.drop 1).take 4) then [0x04, 0, 0, 0, 0]
      else responsePacket .ok ((fb.drop 5).take (fb.length - (fb.getD 0 0).toNat - 5)) := by
  simp only [verdict, fromLe_take_one]
  split
  · rfl
  · split <;> rfl

/-- Settles O28: the context test, then the length test, then the verdict on the recovered frame; the
increment comes between the first two. -/
theorem decAnswers : Obligations.DecAnswers := by
  intro c s
  refine ⟨exec_dec_of_dead c, fun B fb hlive hbs hfb => ?_⟩
  split
  case isTrue hlength => exact exec_dec_of_badLength hlive hbs hlength
  case isFalse hwhole =>
    rw [← responsePacket_verdict]
    exact exec_dec_of_wholeBlocks hlive hbs hwhole (congrArg (verdict engine) hfb)

/-! ### DEC undoes ENC (42_decrypt.md R126, R127) -/

/-- Settles O29: the ciphertext is as long as the frame, so it passes the length test; decryption recovers the
frame, and the verdict on it does not look at its filler. -/
theorem decAcceptsAnyFiller : Obligations.DecAcceptsAnyFiller := by
  intro p filler s B hlive hbs hfiller hframe
  have hwhole : (frameBytes filler.length (engine.hash32 p) p filler).length % B.bytes = 0 := by
    rwa [frameBytes_length]
  refine exec_dec_of_wholeBlocks (v := (.ok, p)) hlive hbs ?_ ?_
  · rw [ecbEnc_length _ _ _ _ hwhole, frameBytes_length]
    omega
  · rw [ecbDec_ecbEnc engine engine_inverse B _ _ hwhole, verdict_frameBytes engine p filler hfiller]

/-- What ENC sends is the encryption of a frame with `padLen` zero bytes as its filler, so DEC accepts it. -/
theorem exec_dec_of_ciphertext (p : List Byte) {s : State} {B : BlockSize} (hlive : s.live = true)
    (hbs : s.bs.toNat = B.bytes) :
    exec (.dec (ciphertext engine B (blockOfList B (s.key.toList.take B.bytes)) p)) s =
      .next (respond .ok p (countDec s)) := by
  have hpad := padLen_lt p.length B
  have ⟨_, hbytes⟩ := bytes_pos B
  have hdec := decAcceptsAnyFiller p (List.replicate (padLen p.length B.bytes) padByte) s B hlive hbs
  rw [List.length_replicate] at hdec
  exact hdec (by omega) (frameLen_mod p.length B)

/-- Settles O30: the ciphertext depends on the state through `BS` and `KEY[0 .. BS]` only, so another state
with the same two accepts it as its own. -/
theorem roundTrip : Obligations.RoundTrip := by
  intro p s B hp hlive hbs
  refine ⟨_, _, exec_enc_of_live hp hlive hbs, rfl, fun s' hlive' hsize hkey => ?_⟩
  rw [← hkey]
  exact exec_dec_of_ciphertext p hlive' (hsize ▸ hbs)

end Sys2Proof.Proofs

namespace Sys2Proof.Proofs

open Sys2Proof.Machine

/-! ### The counter increment and the counter reads (43_counters.md R140, R143, R144) -/

/-- Settles O31: addition of 16-bit words is addition modulo `2 ^ 16`. -/
theorem incrementWraps : Obligations.IncrementWraps :=
  ⟨fun v => BitVec.toNat_add v 1, by decide⟩

/-- Two bytes stored low first, put together again high first. -/
theorem leBytes_two_toNat (v : BitVec 16) : ∃ lo hi : Byte, v = hi ++ lo ∧ leBytes 2 v.toNat = [lo, hi] := by
  refine ⟨_, _, BitVec.eq_of_toNat_eq ?_, rfl⟩
  have := v.isLt
  rw [toNat_append_byte]
  simp only [BitVec.toNat_ofNat]
  omega

/-- An OK response with a payload of two bytes (30_encoding.md R56). -/
theorem responsePacket_ok_pair (lo hi : Byte) :
    responsePacket .ok [lo, hi] = [0x00, 0x02, 0x00, 0x00, 0x00, lo, hi] := by
  simp [responsePacket, statusCode, leBytes_four]

/-- Settles O32: without a payload RDENC sends the counter's two bytes, low first; with one it raises
IllegalCommand. -/
theorem rdencReadsTheCounter : Obligations.RdencReadsTheCounter := by
  refine ⟨fun s => ?_, fun p s hp => exec_rdenc_of_badLength (by simpa using hp) s⟩
  obtain ⟨lo, hi, hcnt, hbytes⟩ := leBytes_two_toNat s.encCnt
  refine ⟨lo, hi, hcnt, ?_⟩
  rw [exec_rdenc_nil, hbytes, respond, responsePacket_ok_pair]

/-- Settles O33: without a payload RDDEC sends the counter's two bytes, low first; with one it raises
IllegalCommand. -/
theorem rddecReadsTheCounter : Obligations.RddecReadsTheCounter := by
  refine ⟨fun s => ?_, fun p s hp => exec_rddec_of_badLength (by simpa using hp) s⟩
  obtain ⟨lo, hi, hcnt, hbytes⟩ := leBytes_two_toNat s.decCnt
  refine ⟨lo, hi, hcnt, ?_⟩
  rw [exec_rddec_nil, hbytes, respond, responsePacket_ok_pair]

/-! ### Who writes the counters (43_counters.md R141, R142, R146) -/

/-- A construction waits for its draw, or ends with an error and no write, or installs a key and answers OK. -/
theorem exec_construction_next {i : Instr} (hi : IsConstruction i) {s t : State} (h : exec i s = .next t) :
    t = s ∨ (∃ e, e ≠ .ok ∧ t = raise e s) ∨
      ∃ k u, u.rspOut = s.rspOut ∧ t = respond .ok [] (install k u) := by
  obtain ⟨p, rfl⟩ | ⟨k, rfl⟩ := hi
  · by_cases hp : p.length = 2
    · cases hB : blockSizeOfBits (newszBits p) with
      | none =>
        cases (exec_newsz_of_badSize hp hB s).symm.trans h
        exact .inr (.inl ⟨.invalidKeySize, by decide, rfl⟩)
      | some B =>
        by_cases he : B.bytes ≤ s.entropyIn.length
        · cases (exec_newsz_of_draw hp hB he).symm.trans h
          exact .inr (.inr ⟨_, { s with entropyIn := s.entropyIn.drop B.bytes }, rfl, rfl⟩)
        · have hwait : s.entropyIn.length < entropyNeed (.newsz p) := by
            rw [entropyNeed_newsz hp hB]; omega
          cases (exec_of_noEntropy hwait).symm.trans h
          exact .inl rfl
    · cases (exec_newsz_of_badLength hp s).symm.trans h
      exact .inr (.inl ⟨.illegalCommand, by decide, rfl⟩)
  · cases hk : blockSizeOfLen k.length with
    | none =>
      cases (exec_newkey_of_badLength hk s).symm.trans h
      exact .inr (.inl ⟨.invalidKeySize, by decide, rfl⟩)
    | some B =>
      cases (exec_newkey_of_goodLength hk s).symm.trans h
      exact .inr (.inr ⟨k, s, rfl, rfl⟩)

/-- 0x00 is the status code of OK alone (60_exceptions.md R201). -/
theorem eq_ok_of_statusCode_eq_zero {st : Status} (h : statusCode st = 0) : st = .ok := by
  cases st with
  | ok => rfl
  | _ => exact absurd h (by decide)

/-- The response OK tells a construction that zeroed the counters from one that left them (R146). -/
theorem exec_construction_counters {i : Instr} (hi : IsConstruction i) {s t : State} (h : exec i s = .next t) :
    (t.rspOut = s.rspOut ++ [0x00, 0, 0, 0, 0] → t.live = true ∧ t.encCnt = 0 ∧ t.decCnt = 0) ∧
      (t.rspOut ≠ s.rspOut ++ [0x00, 0, 0, 0, 0] → t.encCnt = s.encCnt ∧ t.decCnt = s.decCnt) := by
  obtain rfl | ⟨e, he, rfl⟩ | ⟨k, u, hsent, rfl⟩ := exec_construction_next hi h
  · exact ⟨fun hok => by simp at hok, fun _ => ⟨rfl, rfl⟩⟩
  · exact ⟨fun hok => absurd (eq_ok_of_statusCode_eq_zero (statusCode_of_rspOut hok)) he, fun _ => ⟨rfl, rfl⟩⟩
  · refine ⟨fun _ => ⟨rfl, rfl, rfl⟩, fun hnotOk => absurd ?_ hnotOk⟩
    rw [respond_rspOut, install_rspOut, hsent]
    rfl

/-- An ENC that passes the length and context tests and does not stop the engine found a block size. -/
theorem exists_blockSize_of_exec_enc {p : List Byte} {s t : State} (hp : p.length ≤ engine.maxPt.val)
    (hlive : s.live = true) (h : exec (.enc p) s = .next t) : ∃ B : BlockSize, s.bs.toNat = B.bytes := by
  cases hB : contextSize s with
  | none => cases (encWith_badSize hp hlive hB).symm.trans h
  | some B => exact ⟨B, contextSize_eq_some.mp hB⟩

/-- ENC counts exactly when the plaintext is within MAX_PT and a context is live (R141). -/
theorem exec_enc_encCnt {p : List Byte} {s t : State} (h : exec (.enc p) s = .next t) :
    t.encCnt = if s.live = true ∧ p.length ≤ engine.maxPt.val then s.encCnt + 1 else s.encCnt := by
  by_cases hp : p.length ≤ engine.maxPt.val
  · by_cases hlive : s.live = true
    · obtain ⟨B, hbs⟩ := exists_blockSize_of_exec_enc hp hlive h
      cases (exec_enc_of_live hp hlive hbs).symm.trans h
      rw [if_pos ⟨hlive, hp⟩]
      rfl
    · cases (exec_enc_of_dead hp (by simpa using hlive)).symm.trans h
      rw [if_neg fun hboth => hlive hboth.1]
      rfl
  · cases (exec_enc_of_tooLong (Nat.lt_of_not_le hp) s).symm.trans h
    rw [if_neg fun hboth => hp hboth.2]
    rfl

/-- DEC counts exactly when a context is live, whatever it answers (R142). -/
theorem exec_dec_decCnt {c : List Byte} {s t : State} (h : exec (.dec c) s = .next t) :
    t.decCnt = if s.live = true then s.decCnt + 1 else s.decCnt := by
  obtain ⟨st, payload, s', rfl, heff⟩ := exec_next_of_noDraw rfl h
  obtain ⟨-, rfl, hdead⟩ | ⟨-, hlive, rfl⟩ := heff
  · rw [if_neg (by simp [hdead])]
    rfl
  · rw [if_pos hlive]
    rfl

/-- Settles O35: a construction zeroes both counters exactly when its response is OK; ENC and DEC each write
their own counter, and by their frames nothing of the other's; the frames of the rest hold both counters. -/
theorem counterWriters : Obligations.CounterWriters := by
  intro i s t h
  cases i with
  | newsz p => exact exec_construction_counters (.inl ⟨p, rfl⟩) h
  | newkey k => exact exec_construction_counters (.inr ⟨k, rfl⟩) h
  | enc p => exact ⟨exec_enc_encCnt h, by rw [exec_enc_frame h]⟩
  | dec c => exact ⟨by rw [exec_dec_frame h], exec_dec_decCnt h⟩
  | dispose p => rw [exec_dispose_frame h]; exact ⟨rfl, rfl⟩
  | rdenc p => rw [exec_rdenc_frame h]; exact ⟨rfl, rfl⟩
  | rddec p => rw [exec_rddec_frame h]; exact ⟨rfl, rfl⟩

/-! ### The counters over a run (43_counters.md R141, R142) -/

theorem exec_keeps_context {i : Instr} (hi : keepsContext i = true) {s t : State} (h : exec i s = .next t) :
    t.live = s.live ∧ t.bs = s.bs := by
  cases i with
  | newsz p => cases hi
  | newkey k => cases hi
  | dispose p => cases hi
  | enc p => rw [exec_enc_frame h]; exact ⟨rfl, rfl⟩
  | dec c => rw [exec_dec_frame h]; exact ⟨rfl, rfl⟩
  | rdenc p => rw [exec_rdenc_frame h]; exact ⟨rfl, rfl⟩
  | rddec p => rw [exec_rddec_frame h]; exact ⟨rfl, rfl⟩

/-- In a live context the two counters advance by one with each command of their own kind. -/
theorem exec_counters_of_live {i : Instr} (hi : keepsContext i = true) {s t : State} (hlive : s.live = true)
    (h : exec i s = .next t) :
    t.encCnt = (if isCountedEnc i = true then s.encCnt + 1 else s.encCnt) ∧
      t.decCnt = if isDec i = true then s.decCnt + 1 else s.decCnt := by
  have hwrites := counterWriters i s t h
  cases i with
  | newsz p => cases hi
  | newkey k => cases hi
  | dispose p => cases hi
  | enc p => simpa [isCountedEnc, isDec, hlive] using hwrites
  | dec c => simpa [isCountedEnc, isDec, hlive] using hwrites
  | rdenc p => exact hwrites
  | rddec p => exact hwrites

/-- One command's advance and that of the commands behind it add up, modulo `2 ^ 16`. -/
theorem advance_toNat_add (v : BitVec 16) (counted : Instr → Bool) (i : Instr) (is : List Instr) :
    ((if counted i = true then v + 1 else v).toNat + is.countP counted) % 65536 =
      (v.toNat + (i :: is).countP counted) % 65536 := by
  rw [List.countP_cons]
  split
  · have hinc : (v + 1).toNat = (v.toNat + 1) % 65536 := incrementWraps.1 v
    omega
  · rfl

/-- Settles O34, by induction on the run: each command completes, keeps the context the rest of the run needs,
and advances the counters by its own share. -/
theorem countersCountCalls : Obligations.CountersCountCalls := by
  intro is
  induction is with
  | nil =>
    intro s B _ _ _
    exact ⟨s, rfl, (Nat.mod_eq_of_lt s.encCnt.isLt).symm, (Nat.mod_eq_of_lt s.decCnt.isLt).symm⟩
  | cons i is ih =>
    intro s B hkeeps hlive hbs
    obtain ⟨hi, his⟩ := List.forall_mem_cons.mp hkeeps
    obtain ⟨u, hexec⟩ := exec_answers i s fun _ => ⟨B, hbs⟩
    obtain ⟨hlive', hbs'⟩ := exec_keeps_context hi hexec
    obtain ⟨henc, hdec⟩ := exec_counters_of_live hi hlive hexec
    obtain ⟨t, hrun, hencs, hdecs⟩ := ih u B his (hlive'.trans hlive) (by rw [hbs', hbs])
    refine ⟨t, by rw [execAll, hexec]; exact hrun, ?_, ?_⟩
    · rw [hencs, henc, advance_toNat_add]
    · rw [hdecs, hdec, advance_toNat_add]

end Sys2Proof.Proofs

namespace Sys2Proof.Proofs

open Sys2Proof.Machine

/-! ### The checksum is linear in its register and its input together (44_checksum.md R155) -/

/-- What the bit shifted out of the register xors into it (44_checksum.md R152). -/
def crcFeedback (out : Bool) : BitVec 32 :=
  if out then 0xEDB88320#32 else 0

theorem crcBit_eq (crc : BitVec 32) : crcBit crc = crc >>> 1 ^^^ crcFeedback (crc.getLsbD 0) := by
  rw [crcBit, crcFeedback]
  split
  · rfl
  · exact BitVec.xor_zero.symm

/-- Two feedbacks of the polynomial cancel. -/
theorem crcFeedback_xor : ∀ p q : Bool, crcFeedback (p ^^ q) = crcFeedback p ^^^ crcFeedback q := by
  decide

theorem crcBit_xor (x y : BitVec 32) : crcBit (x ^^^ y) = crcBit x ^^^ crcBit y := by
  simp only [crcBit_eq, BitVec.ushiftRight_xor_distrib, BitVec.getLsbD_xor, crcFeedback_xor]
  ac_rfl

theorem crcBits_xor (n : Nat) (x y : BitVec 32) : crcBits n (x ^^^ y) = crcBits n x ^^^ crcBits n y := by
  induction n generalizing x y with
  | zero => rfl
  | succ n ih => simp only [crcBits, crcBit_xor, ih]

theorem crcByte_xor (x y : BitVec 32) (a b : Byte) :
    crcByte (x ^^^ y) (a ^^^ b) = crcByte x a ^^^ crcByte y b := by
  have hregister : x ^^^ y ^^^ (a ^^^ b).zeroExtend 32 =
      (x ^^^ a.zeroExtend 32) ^^^ (y ^^^ b.zeroExtend 32) := by
    rw [BitVec.zeroExtend, BitVec.setWidth_xor]
    ac_rfl
  simp only [crcByte, hregister, crcBits_xor]

theorem foldl_crcByte_xor {s t : List Byte} (h : s.length = t.length) (x y : BitVec 32) :
    (xorBytes s t).foldl crcByte (x ^^^ y) = s.foldl crcByte x ^^^ t.foldl crcByte y := by
  induction s generalizing t x y with
  | nil =>
    obtain rfl := List.length_eq_zero_iff.mp h.symm
    rfl
  | cons a s ih =>
    cases t with
    | nil => cases h
    | cons b t =>
      have htail := ih (Nat.succ.inj h) (crcByte x a) (crcByte y b)
      rwa [← crcByte_xor] at htail

/-- Settles O48: three copies of the start value, and of the final one, xor to one copy (44_checksum.md R152), so
the linear register between them splits into three. -/
theorem crcIsLinear : Obligations.CrcIsLinear := by
  refine ⟨rfl, fun a b c hab hbc => ?_⟩
  have habc : (xorBytes a b).length = c.length := by rw [xorBytes_length]; omega
  have hones : 0xFFFFFFFF#32 ^^^ 0xFFFFFFFF#32 ^^^ 0xFFFFFFFF#32 = 0xFFFFFFFF#32 := by decide
  have hregister : (xorBytes (xorBytes a b) c).foldl crcByte 0xFFFFFFFF#32 =
      a.foldl crcByte 0xFFFFFFFF#32 ^^^ b.foldl crcByte 0xFFFFFFFF#32 ^^^ c.foldl crcByte 0xFFFFFFFF#32 := by
    rw [← foldl_crcByte_xor hab, ← foldl_crcByte_xor habc, hones]
  calc crc32 (xorBytes (xorBytes a b) c)
      = (a.foldl crcByte 0xFFFFFFFF#32 ^^^ b.foldl crcByte 0xFFFFFFFF#32 ^^^ c.foldl crcByte 0xFFFFFFFF#32) ^^^
          (0xFFFFFFFF#32 ^^^ 0xFFFFFFFF#32 ^^^ 0xFFFFFFFF#32) := by rw [crc32, hregister, hones]
    _ = crc32 a ^^^ crc32 b ^^^ crc32 c := by
      simp only [crc32]
      ac_rfl

/-- Settles O49, by running the checksum and the cipher on the fixed inputs. -/
theorem checkValues : Obligations.CheckValues := by
  refine ⟨?_, ?_, ?_⟩ <;> decide +kernel

end Sys2Proof.Proofs

namespace Sys2Proof.Proofs

open Sys2Proof.Machine

/-! ### XORTEST (45_block_cipher.md R166) -/

theorem xorBlock_getElem (B : BlockSize) (k b : Block B) (j : Nat) (h : j < B.bytes) :
    (xorBlock B k b)[j] = b[j] ^^^ k[j] := by
  rw [xorBlock, Vector.getElem_ofFn]
  rfl

/-- XORTEST is its own inverse: the key byte cancels. -/
theorem xorBlock_xorBlock (B : BlockSize) (k b : Block B) : xorBlock B k (xorBlock B k b) = b := by
  apply Vector.ext
  intro j hj
  rw [xorBlock_getElem, xorBlock_getElem, BitVec.xor_assoc, BitVec.xor_self, BitVec.xor_zero]

/-- Settles O45: `E` and `D` are one function, which undoes itself. -/
theorem xorTestCipher : Obligations.XorTestCipher :=
  ⟨fun B k x => ⟨xorBlock_xorBlock B k x, xorBlock_xorBlock B k x⟩,
    fun B k b j h => ⟨xorBlock_getElem B k b j h, xorBlock_getElem B k b j h⟩⟩

/-! ### Rijndael's inverse law (45_block_cipher.md R175, R176) -/

/-- Inner rounds keep the state's length, in either direction. -/
theorem cipherRounds_length (B : BlockSize) (rks : List (List Byte)) (s : List Byte)
    (hk : ∀ rk ∈ rks, rk.length = B.bytes) (hs : s.length = B.bytes) :
    (cipherRounds B rks s).length = B.bytes := by
  induction rks generalizing s with
  | nil => exact hs
  | cons rk rks ih =>
    obtain ⟨hrk, hrks⟩ := List.forall_mem_cons.mp hk
    exact ih _ hrks (cipherRound_length B rk s hrk)

theorem invCipherRounds_length (B : BlockSize) (rks : List (List Byte)) (s : List Byte)
    (hs : s.length = B.bytes) : (invCipherRounds B rks s).length = B.bytes := by
  cases rks with
  | nil => exact hs
  | cons rk rks => exact invCipherRound_length B rk _

/-- The backward rounds take the round keys last first, so each of them meets its own forward round. -/
theorem invCipherRounds_cipherRounds (B : BlockSize) (rks : List (List Byte)) (s : List Byte)
    (hk : ∀ rk ∈ rks, rk.length = B.bytes) (hs : s.length = B.bytes) :
    invCipherRounds B rks (cipherRounds B rks s) = s := by
  induction rks generalizing s with
  | nil => rfl
  | cons rk rks ih =>
    obtain ⟨hrk, hrks⟩ := List.forall_mem_cons.mp hk
    rw [cipherRounds, invCipherRounds, ih _ hrks (cipherRound_length B rk s hrk),
      invCipherRound_cipherRound B rk s hrk hs]

theorem cipherRounds_invCipherRounds (B : BlockSize) (rks : List (List Byte)) (s : List Byte)
    (hk : ∀ rk ∈ rks, rk.length = B.bytes) (hs : s.length = B.bytes) :
    cipherRounds B rks (invCipherRounds B rks s) = s := by
  induction rks with
  | nil => rfl
  | cons rk rks ih =>
    obtain ⟨hrk, hrks⟩ := List.forall_mem_cons.mp hk
    rw [cipherRounds, invCipherRounds,
      cipherRound_invCipherRound B rk _ hrk (invCipherRounds_length B rks s hs), ih hrks]

theorem lastRound_length (B : BlockSize) (rk s : List Byte) (hk : rk.length = B.bytes) :
    (lastRound B rk s).length = B.bytes := by
  simp [lastRound, hk]

theorem invLastRound_length (B : BlockSize) (rk s : List Byte) : (invLastRound B rk s).length = B.bytes := by
  simp [invLastRound]

/-- Every inner round key has the state's length. -/
theorem innerKeys_length (B : BlockSize) (k : List Byte) (h : k.length = B.bytes) :
    ∀ rk ∈ innerKeys B (expandKey B k), rk.length = B.bytes := by
  intro rk hrk
  obtain ⟨r, hr, rfl⟩ := List.mem_map.mp hrk
  have hlast := List.mem_range.mp hr
  exact roundKey_length B k h (r + 1) (by omega)

section WholeCipher

variable (B : BlockSize) (k x : List Byte) (hk : k.length = B.bytes) (hx : x.length = B.bytes)
include hk

theorem rijndaelEncBytes_length : (rijndaelEncBytes B k x).length = B.bytes :=
  lastRound_length B _ _ (roundKey_length B k hk _ le_rfl)

theorem rijndaelDecBytes_length : (rijndaelDecBytes B k x).length = B.bytes := by
  rw [rijndaelDecBytes, xorBytes_length, invCipherRounds_length B _ _ (invLastRound_length B _ x),
    roundKey_length B k hk 0 (Nat.zero_le _), Nat.min_self]

include hx

/-- Decryption undoes the last round, the inner rounds and the first round key, in this order. -/
theorem rijndaelDecBytes_rijndaelEncBytes : rijndaelDecBytes B k (rijndaelEncBytes B k x) = x := by
  have hfirst := roundKey_length B k hk 0 (Nat.zero_le _)
  have hlast := roundKey_length B k hk (rounds B) le_rfl
  have hinner := innerKeys_length B k hk
  have hstart : (xorBytes x (roundKey B (expandKey B k) 0)).length = B.bytes := by
    rw [xorBytes_length, hx, hfirst, Nat.min_self]
  rw [rijndaelDecBytes, rijndaelEncBytes,
    invLastRound_lastRound B _ _ hlast (cipherRounds_length B _ _ hinner hstart),
    invCipherRounds_cipherRounds B _ _ hinner hstart, xorBytes_twice _ _ (hx.trans hfirst.symm)]

/-- Encryption restores the first round key, the inner rounds and the last round, in this order. -/
theorem rijndaelEncBytes_rijndaelDecBytes : rijndaelEncBytes B k (rijndaelDecBytes B k x) = x := by
  have hfirst := roundKey_length B k hk 0 (Nat.zero_le _)
  have hlast := roundKey_length B k hk (rounds B) le_rfl
  have hinner := innerKeys_length B k hk
  have hend := invLastRound_length B (roundKey B (expandKey B k) (rounds B)) x
  rw [rijndaelDecBytes, rijndaelEncBytes,
    xorBytes_twice _ _ ((invCipherRounds_length B _ _ hend).trans hfirst.symm),
    cipherRounds_invCipherRounds B _ _ hinner hend, lastRound_invLastRound B _ x hlast hx]

end WholeCipher

/-- Settles O46: a block is exactly its bytes, so the inverse law on byte sequences is the law on blocks. -/
theorem rijndaelInverse : Obligations.RijndaelInverse := by
  intro B k x
  have hk := block_length B k
  have hx := block_length B x
  constructor
  · calc rijndaelDec B k (rijndaelEnc B k x)
        = blockOfList B (rijndaelDecBytes B k.toList (rijndaelEncBytes B k.toList x.toList)) := by
          rw [rijndaelDec, rijndaelEnc, toList_blockOfList_eq B _ (rijndaelEncBytes_length B _ _ hk)]
      _ = x := by rw [rijndaelDecBytes_rijndaelEncBytes B _ _ hk hx, blockOfList_self]
  · calc rijndaelEnc B k (rijndaelDec B k x)
        = blockOfList B (rijndaelEncBytes B k.toList (rijndaelDecBytes B k.toList x.toList)) := by
          rw [rijndaelDec, rijndaelEnc, toList_blockOfList_eq B _ (rijndaelDecBytes_length B _ _ hk)]
      _ = x := by rw [rijndaelEncBytes_rijndaelDecBytes B _ _ hk hx, blockOfList_self]

/-! ### The S-box (45_block_cipher.md R169) -/

/-- R169's affine map on a whole byte: bit `(i + n) mod 8` comes to bit `i` by a rotation to the right by `n`. -/
def sboxAffine (x : Byte) : Byte :=
  x ^^^ x.rotateRight 4 ^^^ x.rotateRight 5 ^^^ x.rotateRight 6 ^^^ x.rotateRight 7 ^^^ 0x63

theorem rotateRight_getLsbD (x : Byte) (n i : Nat) (hn : n < 8) (hi : i < 8) :
    (x.rotateRight n).getLsbD i = x.getLsbD ((i + n) % 8) := by
  rw [BitVec.getLsbD_rotateRight, Nat.mod_eq_of_lt hn]
  by_cases h : i < 8 - n
  · rw [decide_eq_true h, cond_true, Nat.mod_eq_of_lt (by omega), Nat.add_comm]
  · have hwrap : (i + n) % 8 = i - (8 - n) := by omega
    rw [decide_eq_false h, cond_false, decide_eq_true hi, Bool.true_and, hwrap]

theorem sboxAffine_getLsbD (x : Byte) (i : Nat) (hi : i < 8) :
    (sboxAffine x).getLsbD i =
      (x.getLsbD i ^^ x.getLsbD ((i + 4) % 8) ^^ x.getLsbD ((i + 5) % 8) ^^ x.getLsbD ((i + 6) % 8) ^^
        x.getLsbD ((i + 7) % 8) ^^ (0x63 : Byte).getLsbD i) := by
  simp only [sboxAffine, BitVec.getLsbD_xor, rotateRight_getLsbD x _ i (by decide : 4 < 8) hi,
    rotateRight_getLsbD x _ i (by decide : 5 < 8) hi, rotateRight_getLsbD x _ i (by decide : 6 < 8) hi,
    rotateRight_getLsbD x _ i (by decide : 7 < 8) hi]

/-- The table of R169 is R169's formula, and what the formula inverts is the field's product. The two are checked
together, entry by entry, because evaluating `fieldInverse` is the cost of the check. -/
theorem sbox_and_fieldInverse (a : Byte) :
    sbox a = sboxAffine (fieldInverse a) ∧ (a ≠ 0 → gmul a (fieldInverse a) = 1) :=
  byte_cases (P := fun a => sbox a = sboxAffine (fieldInverse a) ∧ (a ≠ 0 → gmul a (fieldInverse a) = 1))
    (by decide +kernel) a

/-- Settles O47: the two tables are compared with R169 byte by byte, and the affine map bit by bit. -/
theorem sboxIsAffineOfInverse : Obligations.SboxIsAffineOfInverse := by
  refine ⟨by decide, fun a => (sbox_and_fieldInverse a).2, fun a => ⟨invSbox_sbox a, sbox_invSbox a, fun i hi => ?_⟩⟩
  rw [(sbox_and_fieldInverse a).1]
  exact sboxAffine_getLsbD (fieldInverse a) i hi

end Sys2Proof.Proofs

namespace Sys2Proof.Proofs

open Sys2Proof.Machine

/-! ### A command that ends with an error (60_exceptions.md R210) -/

/-- Only DEC writes a register before it raises an error. -/
theorem effect_error_of_notDec {i : Instr} (hi : ¬∃ c, i = .dec c) {st : Status} {s s' : State}
    (heff : Effect st s s' i) (hst : st ≠ .ok) : s' = s := by
  cases i with
  | newsz p => exact effect_construction_error (.inl ⟨p, rfl⟩) heff hst
  | newkey k => exact effect_construction_error (.inr ⟨k, rfl⟩) heff hst
  | enc p =>
    obtain ⟨-, hs⟩ | ⟨-, hs, -⟩ | ⟨hok, -⟩ := heff
    · exact hs
    · exact hs
    · exact absurd hok hst
  | dec c => exact absurd ⟨c, rfl⟩ hi
  | dispose p =>
    obtain ⟨-, hs⟩ | ⟨hok, -⟩ := heff
    · exact hs
    · exact absurd hok hst
  | rdenc p => exact heff.2
  | rddec p => exact heff.2

/-- A DEC that answers has counted itself exactly when a context was live (R203 to R205). -/
theorem effect_dec {c : List Byte} {st : Status} {s s' : State} (heff : Effect st s s' (.dec c)) :
    s' = if s.live = true then countDec s else s := by
  obtain ⟨-, rfl, hdead⟩ | ⟨-, hlive, rfl⟩ := heff
  · simp [hdead]
  · rw [if_pos hlive]

/-- What an error leaves of the state before its response goes out. -/
theorem effect_error {i : Instr} {st : Status} {s s' : State} (heff : Effect st s s' i) (hst : st ≠ .ok) :
    ((∃ c, i = .dec c) ∧ s.live = true → s' = countDec s) ∧
      (¬((∃ c, i = .dec c) ∧ s.live = true) → s' = s) := by
  by_cases hi : ∃ c, i = .dec c
  · obtain ⟨c, rfl⟩ := hi
    rw [effect_dec heff]
    exact ⟨fun ⟨_, hlive⟩ => if_pos hlive, fun hdead => if_neg fun hlive => hdead ⟨⟨c, rfl⟩, hlive⟩⟩
  · exact ⟨fun ⟨hdec, _⟩ => absurd hdec hi, fun _ => effect_error_of_notDec hi heff hst⟩

/-- Settles O12: bytes were sent, so the command did not wait; the first of them is no OK, so its effect is
that of an error, and the response changes nothing but the response stream. -/
theorem errorsLeaveTheState : Obligations.ErrorsLeaveTheState := by
  intro i s t st hexec hst hrsp
  obtain ⟨rfl, -⟩ | ⟨sent, payload, s', rfl, -, -, heff⟩ := exec_next hexec
  · simp at hrsp
  · have hsent : sent ≠ .ok := by
      rintro rfl
      rw [← effect_rspOut heff] at hrsp
      exact hst (eq_ok_of_statusCode_eq_zero (statusCode_of_rspOut hrsp).symm)
    obtain ⟨hcounted, hkept⟩ := effect_error heff hsent
    refine ⟨fun hdec => ?_, fun hdec => ?_⟩
    · rw [hcounted hdec]
      rfl
    · rw [hkept hdec]
      rfl

/-! ### The wait for entropy (60_exceptions.md R214) -/

/-- The operand of a legal NEWSZ names its block size (40_construction.md R80). -/
theorem blockSizeOfBits_newsz (B : BlockSize) :
    blockSizeOfBits (newszBits (leBytes 2 (8 * B.bytes))) = some B := by
  have ⟨_, hbytes⟩ := bytes_pos B
  rw [blockSizeOfBits_eq_some, newszBits, fromLe_leBytes 2 _ (by omega)]

theorem step_of_noEntropy {s : State} {i : Instr} {rest : List Byte} (h : decode s.cmdIn = .command i rest)
    (hent : s.entropyIn.length < entropyNeed i) (hreset : dueReset s.resetIn = none) :
    step s = .next (elapse s) := by
  rw [step_of_noReset hreset]
  exact serve_of_noEntropy h hent

/-- Settles O17: short of its draw the packet stays on the stream; with the missing bytes behind those that
were there, the draw is all of them, and the packet is executed as the installation of it. -/
theorem newszWaitsForEntropy : Obligations.NewszWaitsForEntropy := by
  intro B rest more s hcmd hshort hreset hdraw
  have hB := blockSizeOfBits_newsz B
  have hdec : decode s.cmdIn = .command (.newsz (leBytes 2 (8 * B.bytes))) rest := by
    rw [hcmd, decode_encode_append (by simp [Instr.wellFormed, Instr.payload])]
  have hneed : entropyNeed (.newsz (leBytes 2 (8 * B.bytes))) = B.bytes :=
    entropyNeed_newsz (leBytes_length 2 _) hB
  refine ⟨step_of_noEntropy hdec (by rwa [hneed]) hreset, ?_⟩
  have hstep := stepRunsDecodedCommand (entropyAnswer more s) _ rest hdec (hneed.trans hdraw.symm).le hreset
  rw [exec_newsz_of_entropy (later := []) (leBytes_length 2 _) hB hdraw (List.append_nil _).symm] at hstep
  obtain ⟨hlive, hkey, hbs, -, -, hentropy, hstream, -, -⟩ := respond_ok_install hdraw rfl
  refine ⟨_, hstep, hlive, hbs.trans hdraw, ?_, hentropy, hstream⟩
  rw [hkey, List.take_left' hdraw]

/-! ### The response packet (30_encoding.md R56) -/

/-- Settles O10: a response packet has the layout of a command packet, with the status code in the place of
the opcode. -/
theorem responseFormat : Obligations.ResponseFormat := by
  refine ⟨⟨rfl, rfl, rfl, rfl, rfl, rfl, rfl⟩, fun st payload hlength => ?_⟩
  obtain ⟨l0, l1, l2, l3, hbytes, hpacket⟩ := commandPacket_eq (statusCode st) payload
  have hvalue := fromLe_leBytes 4 payload.length hlength
  simp only [hbytes, fromLe] at hvalue
  exact ⟨l0, l1, l2, l3, hpacket, by omega⟩

end Sys2Proof.Proofs

namespace Sys2Proof.Proofs

open Sys2Proof.Machine

/-! ### Runs of commands and of steps

A run that completes is its first part completed and then the rest; what one command keeps, answers or draws
carries over to a list of them by induction. -/

theorem execAll_cons_eq_next {i : Instr} {is : List Instr} {s t : State} :
    execAll (i :: is) s = .next t ↔ ∃ u, exec i s = .next u ∧ execAll is u = .next t := by
  rw [execAll]
  cases exec i s <;> simp

/-- The step behind a completed run of `n` steps is the last one of a run of `n + 1`. -/
theorem runSteps_succ_of_next {n : Nat} {s t u : State} (h : runSteps n s = .next t) (hstep : step t = .next u) :
    runSteps (n + 1) s = .next u := by
  induction n generalizing s with
  | zero =>
    cases h
    rw [runSteps, hstep]
    rfl
  | succ n ih =>
    rw [runSteps] at h ⊢
    cases hfirst : step s with
    | next s' =>
      rw [hfirst] at h
      exact ih h
    | fault r => rw [hfirst] at h; cases h
    | refused r => rw [hfirst] at h; cases h

/-- A live context has one of the three block sizes: what of 10_state.md R21 keeps the engine from stopping. -/
def LiveSized (s : State) : Prop :=
  s.live = true → ∃ B : BlockSize, s.bs.toNat = B.bytes

theorem liveSized_of_effect {i : Instr} {st : Status} {s s' : State} (h : LiveSized s) (heff : Effect st s s' i) :
    LiveSized s' := by
  cases i with
  | newsz p =>
    obtain ⟨-, rfl⟩ | ⟨-, rfl⟩ | ⟨-, B, hB, rfl⟩ := heff
    · exact h
    · exact h
    · have hdraw : (s.entropyIn.take B.bytes).length = B.bytes := List.length_take_of_le hB
      exact fun _ => ⟨B, (install_bs_toNat hdraw _).trans hdraw⟩
  | newkey k =>
    obtain ⟨-, rfl⟩ | ⟨-, ⟨B, hB⟩, rfl⟩ := heff
    · exact h
    · exact fun _ => ⟨B, (install_bs_toNat hB s).trans hB⟩
  | enc p => obtain ⟨-, rfl⟩ | ⟨-, rfl, -⟩ | ⟨-, -, rfl⟩ := heff <;> exact h
  | dec c => obtain ⟨-, rfl, -⟩ | ⟨-, -, rfl⟩ := heff <;> exact h
  | dispose p =>
    obtain ⟨-, rfl⟩ | ⟨-, rfl⟩ := heff
    · exact h
    · exact fun hlive => by simp at hlive
  | rdenc p => obtain ⟨-, rfl⟩ := heff; exact h
  | rddec p => obtain ⟨-, rfl⟩ := heff; exact h

theorem exec_keeps_liveSized {i : Instr} {s t : State} (h : LiveSized s) (hexec : exec i s = .next t) :
    LiveSized t := by
  obtain ⟨rfl, -⟩ | ⟨st, payload, s', rfl, -, -, heff⟩ := exec_next hexec
  · exact h
  · have hsized : LiveSized s' := liveSized_of_effect h heff
    exact hsized

theorem execAll_answers (is : List Instr) {s : State} (h : LiveSized s) : ∃ t, execAll is s = .next t := by
  induction is generalizing s with
  | nil => exact ⟨s, rfl⟩
  | cons i is ih =>
    obtain ⟨u, hexec⟩ := exec_answers i s h
    obtain ⟨t, hrun⟩ := ih (exec_keeps_liveSized h hexec)
    exact ⟨t, execAll_cons_eq_next.mpr ⟨u, hexec, hrun⟩⟩

theorem execAll_keeps_inputs {is : List Instr} {s t : State} (h : execAll is s = .next t) :
    t.cmdIn = s.cmdIn ∧ t.resetIn = s.resetIn := by
  induction is generalizing s with
  | nil => cases h; exact ⟨rfl, rfl⟩
  | cons i is ih =>
    obtain ⟨u, hexec, hrun⟩ := execAll_cons_eq_next.mp h
    obtain ⟨hcmd, hreset⟩ := ih hrun
    obtain ⟨hcmd', hreset'⟩ := exec_keeps_inputs hexec
    exact ⟨hcmd.trans hcmd', hreset.trans hreset'⟩

/-- Commands none of which has to wait draw, together, the bytes each of them needs. -/
theorem execAll_entropyIn {is : List Instr} {s t : State} (h : execAll is s = .next t)
    (hent : (is.map entropyNeed).sum ≤ s.entropyIn.length) :
    t.entropyIn = s.entropyIn.drop (is.map entropyNeed).sum := by
  induction is generalizing s with
  | nil => cases h; rfl
  | cons i is ih =>
    rw [List.map_cons, List.sum_cons] at hent ⊢
    obtain ⟨u, hexec, hrun⟩ := execAll_cons_eq_next.mp h
    have hdraw : u.entropyIn = s.entropyIn.drop (entropyNeed i) := exec_entropyIn hexec (by omega)
    have hleft : (is.map entropyNeed).sum ≤ u.entropyIn.length := by
      rw [hdraw, List.length_drop]
      omega
    rw [ih hrun hleft, hdraw, List.drop_drop]

/-- What commands send is appended to the response stream, and does not depend on what was sent before. -/
theorem execAll_rspOut {is : List Instr} {s t : State} (h : execAll is s = .next t) :
    ∃ r, t.rspOut = s.rspOut ++ r ∧
      ∀ o, execAll is { s with rspOut := o } = .next { t with rspOut := o ++ r } := by
  induction is generalizing s with
  | nil => cases h; exact ⟨[], by simp, fun o => by simp [execAll]⟩
  | cons i is ih =>
    obtain ⟨u, hexec, hrun⟩ := execAll_cons_eq_next.mp h
    obtain ⟨r, hr, hfree⟩ := exec_rspOut hexec
    obtain ⟨r', hr', hfree'⟩ := ih hrun
    refine ⟨r ++ r', by rw [hr', hr, List.append_assoc], fun o => ?_⟩
    rw [← List.append_assoc]
    exact execAll_cons_eq_next.mpr ⟨_, hfree o, hfree' (o ++ r)⟩

/-! ### Reset (70_reset_and_hazards.md R230, R231, R243) -/

theorem dueReset_eq_none {rs : List ResetRequest}
    (h : ∀ sent later, rs ≠ { after := 0, sent := sent } :: later) : dueReset rs = none :=
  Option.eq_none_iff_forall_ne_some.mpr fun (sent, later) hdue => h sent later (dueReset_eq_some.mp hdue)

/-- Settles O37: a due reset is looked for before the stream is. -/
theorem resetIsAStep : Obligations.ResetIsAStep :=
  ⟨fun _ _ _ hreset => step_of_reset hreset, fun _ hnone => step_of_noReset (dueReset_eq_none hnone),
    fun _ hreset => step_hostReset_zero hreset⟩

/-- Settles O38: the packets before the reset are executed in order, which by the invariants completes and
takes from the entropy input what the commands need; by then the reset's count is down to 0, so it is due. -/
theorem resetBetweenCommands : Obligations.ResetBetweenCommands := by
  intro is unread sent later s hinv hwf hent hcmd hreset
  have hcount : countdown is.length s.resetIn = { after := 0, sent := sent } :: later := by
    rw [hreset, countdown_cons, Nat.sub_self]
  have hnotBefore : ResetFree is.length s.resetIn := by
    rw [hreset]
    rintro r later' ⟨rfl, rfl⟩
    exact le_rfl
  have hsized : LiveSized (setInputs unread (countdown is.length s.resetIn) s) := blockSize_of_live (s := s) hinv
  obtain ⟨t, hexec⟩ := execAll_answers is hsized
  have hrun : runSteps is.length s = .next t :=
    (streamRunsInOrder is unread s hwf hent hnotBefore hcmd).trans hexec
  have hresetIn : t.resetIn = countdown is.length s.resetIn := (execAll_keeps_inputs hexec).2
  have hentropy : t.entropyIn = s.entropyIn.drop (is.map entropyNeed).sum := (execAll_entropyIn hexec hent :)
  refine ⟨⟨t, hrun, by rw [hresetIn]; exact hexec⟩, ?_⟩
  rw [← hentropy]
  exact runSteps_succ_of_next hrun (step_of_reset (hresetIn.trans hcount))

/-! ### Packets in, responses out (70_reset_and_hazards.md R242) -/

theorem encode_length (i : Instr) : (encode i).length = 5 + i.payload.length := by
  simp [encode, commandPacket]
  omega

/-- Settles O43: the packet that is taken has a header of five bytes, and so has the one response of a command
that does not have to wait. -/
theorem packetsAreAnswered : Obligations.PacketsAreAnswered := by
  intro s t i rest hdec hent hreset hstep
  rw [stepRunsDecodedCommand s i rest hdec hent hreset] at hstep
  obtain ⟨-, hbytes⟩ := decode_eq_command hdec
  have hcmd : t.cmdIn = rest := (exec_keeps_inputs hstep).1
  obtain ⟨st, payload, -, -, hrsp⟩ := oneResponsePerCommand i _ t hstep hent
  refine ⟨hcmd, ?_, ?_, (exec_keeps_responses hstep :)⟩
  · rw [hcmd, hbytes, List.length_append, encode_length]
    omega
  · simp [hrsp]

/-! ### What DISPOSE leaves of the key (70_reset_and_hazards.md R237, 10_state.md R11) -/

/-- The states agree in every field but the key and the responses already sent. -/
def SameButKey (s s' : State) : Prop :=
  ∃ k o, s' = { s with key := k, rspOut := o }

/-- If the command completes from `s` it completes from `s'`, in a state that differs in the key and the
responses only. -/
def EndsSameButKey (i : Instr) (s s' : State) : Prop :=
  ∀ t, exec i s = .next t → ∃ t', exec i s' = .next t' ∧ SameButKey t t'

theorem endsSameButKey_of_next {i : Instr} {s s' t t' : State} (hs : exec i s = .next t)
    (hs' : exec i s' = .next t') (h : SameButKey t t') : EndsSameButKey i s s' := by
  intro u hu
  cases hs.symm.trans hu
  exact ⟨t', hs', h⟩

section
variable (s : State) (k : Vector Byte 32) (o : List Byte)

theorem endsSameButKey_of_raise {i : Instr} {e : Status} (h : ∀ u, exec i u = .next (raise e u)) :
    EndsSameButKey i s { s with key := k, rspOut := o } :=
  endsSameButKey_of_next (h _) (h _) ⟨k, _, rfl⟩

theorem newsz_endsSameButKey (p : List Byte) : EndsSameButKey (.newsz p) s { s with key := k, rspOut := o } := by
  by_cases hp : p.length = 2
  · cases hB : blockSizeOfBits (newszBits p) with
    | none => exact endsSameButKey_of_raise s k o (exec_newsz_of_badSize hp hB)
    | some B =>
      by_cases he : B.bytes ≤ s.entropyIn.length
      · exact endsSameButKey_of_next (exec_newsz_of_draw hp hB he) (exec_newsz_of_draw hp hB he) ⟨_, _, rfl⟩
      · have hwait : s.entropyIn.length < entropyNeed (.newsz p) := by
          rw [entropyNeed_newsz hp hB]; omega
        exact endsSameButKey_of_next (exec_of_noEntropy hwait) (exec_of_noEntropy hwait) ⟨k, o, rfl⟩
  · exact endsSameButKey_of_raise s k o (exec_newsz_of_badLength hp)

theorem newkey_endsSameButKey (key : List Byte) :
    EndsSameButKey (.newkey key) s { s with key := k, rspOut := o } := by
  cases hB : blockSizeOfLen key.length with
  | none => exact endsSameButKey_of_raise s k o (exec_newkey_of_badLength hB)
  | some B =>
    exact endsSameButKey_of_next (exec_newkey_of_goodLength hB _) (exec_newkey_of_goodLength hB _) ⟨_, _, rfl⟩

/-- The key decides which ciphertext ENC sends, and nothing else. -/
theorem enc_endsSameButKey (p : List Byte) : EndsSameButKey (.enc p) s { s with key := k, rspOut := o } := by
  by_cases hp : p.length ≤ engine.maxPt.val
  · by_cases hlive : s.live = true
    · cases hB : contextSize s with
      | none =>
        intro t h
        cases (encWith_badSize hp hlive hB).symm.trans h
      | some B =>
        have hbs := contextSize_eq_some.mp hB
        exact endsSameButKey_of_next (exec_enc_of_live hp hlive hbs) (exec_enc_of_live hp hlive hbs) ⟨k, _, rfl⟩
    · have hdead : s.live = false := by simpa using hlive
      exact endsSameButKey_of_next (exec_enc_of_dead hp hdead) (exec_enc_of_dead hp hdead) ⟨k, _, rfl⟩
  · exact endsSameButKey_of_raise s k o (exec_enc_of_tooLong (Nat.lt_of_not_le hp))

/-- The key decides DEC's verdict on the recovered frame, and nothing else. -/
theorem dec_endsSameButKey (c : List Byte) : EndsSameButKey (.dec c) s { s with key := k, rspOut := o } := by
  by_cases hlive : s.live = true
  · cases hB : contextSize s with
    | none =>
      intro t h
      cases (decWith_badSize hlive hB).symm.trans h
    | some B =>
      have hbs := contextSize_eq_some.mp hB
      by_cases hc : c.length = 0 ∨ c.length % B.bytes ≠ 0
      · exact endsSameButKey_of_next (exec_dec_of_badLength hlive hbs hc) (exec_dec_of_badLength hlive hbs hc)
          ⟨k, _, rfl⟩
      · exact endsSameButKey_of_next (exec_dec_of_wholeBlocks hlive hbs hc rfl)
          (exec_dec_of_wholeBlocks hlive hbs hc rfl) ⟨k, _, rfl⟩
  · have hdead : s.live = false := by simpa using hlive
    exact endsSameButKey_of_next (exec_dec_of_dead c hdead) (exec_dec_of_dead c hdead) ⟨k, _, rfl⟩

theorem dispose_endsSameButKey (p : List Byte) :
    EndsSameButKey (.dispose p) s { s with key := k, rspOut := o } := by
  cases p with
  | nil => exact endsSameButKey_of_next (exec_dispose_nil _) (exec_dispose_nil _) ⟨_, _, rfl⟩
  | cons b bs => exact endsSameButKey_of_raise s k o (exec_dispose_of_badLength (by simp))

theorem rdenc_endsSameButKey (p : List Byte) : EndsSameButKey (.rdenc p) s { s with key := k, rspOut := o } := by
  cases p with
  | nil => exact endsSameButKey_of_next (exec_rdenc_nil _) (exec_rdenc_nil _) ⟨k, _, rfl⟩
  | cons b bs => exact endsSameButKey_of_raise s k o (exec_rdenc_of_badLength (by simp))

theorem rddec_endsSameButKey (p : List Byte) : EndsSameButKey (.rddec p) s { s with key := k, rspOut := o } := by
  cases p with
  | nil => exact endsSameButKey_of_next (exec_rddec_nil _) (exec_rddec_nil _) ⟨k, _, rfl⟩
  | cons b bs => exact endsSameButKey_of_raise s k o (exec_rddec_of_badLength (by simp))

end

/-- No command carries the key to a register, and none needs it to complete. -/
theorem exec_sameButKey (i : Instr) {s s' : State} (h : SameButKey s s') : EndsSameButKey i s s' := by
  obtain ⟨k, o, rfl⟩ := h
  cases i with
  | newsz p => exact newsz_endsSameButKey s k o p
  | newkey key => exact newkey_endsSameButKey s k o key
  | enc p => exact enc_endsSameButKey s k o p
  | dec c => exact dec_endsSameButKey s k o c
  | dispose p => exact dispose_endsSameButKey s k o p
  | rdenc p => exact rdenc_endsSameButKey s k o p
  | rddec p => exact rddec_endsSameButKey s k o p

theorem execAll_sameButKey {is : List Instr} {s s' t : State} (h : SameButKey s s')
    (hrun : execAll is s = .next t) : ∃ t', execAll is s' = .next t' ∧ SameButKey t t' := by
  induction is generalizing s s' with
  | nil => cases hrun; exact ⟨s', rfl, h⟩
  | cons i is ih =>
    obtain ⟨u, hexec, hrest⟩ := execAll_cons_eq_next.mp hrun
    obtain ⟨u', hexec', hu⟩ := exec_sameButKey i h u hexec
    obtain ⟨t', hrest', ht⟩ := ih hu hrest
    exact ⟨t', execAll_cons_eq_next.mpr ⟨u', hexec', hrest'⟩, ht⟩

/-- A command other than ENC and DEC completes under every key with the same responses too. -/
theorem exec_otherKey {i : Instr} (henc : ∀ p, i ≠ .enc p) (hdec : ∀ c, i ≠ .dec c) (s : State)
    (k : Vector Byte 32) :
    ∃ t k', exec i s = .next t ∧ exec i { s with key := k } = .next { t with key := k' } := by
  obtain ⟨t, t', r, hexec, hexec', hr, hr'⟩ := keyIsNotAnswered i s { s with key := k } henc hdec rfl rfl rfl
  obtain ⟨u, hu, k', o, rfl⟩ := exec_sameButKey i ⟨k, s.rspOut, rfl⟩ t hexec
  cases hexec'.symm.trans hu
  have hsent : o = t.rspOut := hr'.trans hr.symm
  exact ⟨t, k', hexec, by rw [hexec', hsent]⟩

/-- Behind a DISPOSE a run from states that differ in the key is one run: the wiped states are equal. -/
theorem execAll_dispose_otherKey {is : List Instr} (js : List Instr)
    (h : ∀ i ∈ is, (∀ p, i ≠ .enc p) ∧ ∀ c, i ≠ .dec c) (s : State) (k : Vector Byte 32) :
    execAll (is ++ .dispose [] :: js) s = execAll (is ++ .dispose [] :: js) { s with key := k } := by
  induction is generalizing s k with
  | nil =>
    have hwiped : exec (.dispose []) s = exec (.dispose []) { s with key := k } :=
      (exec_dispose_nil s).trans (exec_dispose_nil { s with key := k }).symm
    rw [List.nil_append, execAll, execAll, hwiped]
  | cons i is ih =>
    obtain ⟨⟨henc, hdec⟩, his⟩ := List.forall_mem_cons.mp h
    obtain ⟨t, k', hexec, hexec'⟩ := exec_otherKey henc hdec s k
    rw [List.cons_append, execAll, execAll, hexec, hexec']
    exact ih his t k'

/-- Settles O19: the two states differ in the key only. -/
theorem disposeLeavesNoKeyTrace : Obligations.DisposeLeavesNoKeyTrace :=
  fun _ js s k k' h => execAll_dispose_otherKey js h { s with key := k } k'

/-- Settles O20: commands that complete leave states that differ in the key and the responses; the DISPOSE
wipes the key and leaves no context, so every continuation completes, and what it sends does not depend on
the responses before it. -/
theorem disposeSufficesOnEveryPath : Obligations.DisposeSufficesOnEveryPath := by
  intro is js s t k k' hrun
  have hkeys : SameButKey { s with key := k } { s with key := k' } := ⟨k', s.rspOut, rfl⟩
  obtain ⟨t', hrun', k₁, o, rfl⟩ := execAll_sameButKey hkeys hrun
  have hsized : LiveSized (respond .ok [] (wipe t)) := fun hlive => by simp at hlive
  obtain ⟨v, hrest⟩ := execAll_answers js hsized
  obtain ⟨r, hsent, hfree⟩ := execAll_rspOut hrest
  exact ⟨_, _, hrun', exec_dispose_nil t, exec_dispose_nil _, v, r, hrest, hsent, hfree _⟩

end Sys2Proof.Proofs
